-- ==== Sys2Proof/Word.lean ====
section
/-! DEFINITION. The words of the zinc framebuffer engine (spec/00_scope.md R7, R10). -/

namespace Sys2Proof

/-- A byte: a store byte of `FB`, an image byte, a bus byte (R10). Bit 0 is the top pixel row (R41). -/
abbrev Byte := BitVec 8

/-- A command word `cw`, `CW_BITS` = 64 (R7, R70). -/
abbrev CmdWord := BitVec 64

/-- An address of the image memory, `IMG_ADDR_BITS` = 16 (R7, R44). -/
abbrev ImgAddr := BitVec 16

end Sys2Proof
end

