-- ==== Sys2Proof/Syntax.lean ====
section
/-! DEFINITION. The eight commands of `ZFE-CMD` version 1 (spec/00_scope.md R2, spec/30_encoding.md R72 to R77). -/

namespace Sys2Proof

/-- One constructor per row of spec/opcode_table.json. Each operand has the width of its field (R73 to R75), so an
operand out of range cannot be written down, as it cannot be encoded. Operands stand in the order of R90. -/
inductive Instr where
  /-- `INVAL` (R113). -/
  | inval
  /-- `MARK page`, page 0 to 7 (R114). -/
  | mark (page : BitVec 3)
  /-- `CLEAR` (R112). -/
  | clear
  /-- `FLUSH` (R115, R116). -/
  | flush
  /-- `SETPIX on, px, py`: column `px` 0 to 127, row `py` 0 to 63 (R170). -/
  | setpix (on : Bool) (px : BitVec 7) (py : BitVec 6)
  /-- `DRAW img, x, y`: paint with Set (R140); `x`, `y` are two's complement (R75). -/
  | draw (img : ImgAddr) (x y : BitVec 16)
  /-- `CLRIMG img, x, y`: paint with Clear (R141). -/
  | clrimg (img : ImgAddr) (x y : BitVec 16)
  /-- `BLEND img, x, y`: paint with Over (R142). -/
  | blend (img : ImgAddr) (x y : BitVec 16)
deriving DecidableEq, Repr

end Sys2Proof
end

