-- ==== Sys2Proof/WellFormed.lean ====
section
/-! DEFINITION. Which assembler lines can be encoded (spec/30_encoding.md R90, R91; spec/43_number_renderer.md R160).
Every term of `Instr` is well formed by its operands' types (R73 to R75: a page outside 0 to 7 or a pixel outside the
display "cannot be spelled"), so the range checks stand here, at the lines whose operands are integers: "An operand
outside the stated range cannot be encoded and the assembler refuses the line." -/

namespace Sys2Proof

/-- A line of the assembler: a mnemonic and integer operands in the order of R90 and R91. -/
inductive Line where
  | inval
  | mark (page : Int)
  | clear
  | flush
  | setpix (on px py : Int)
  | draw (img x y : Int)
  | clrimg (img x y : Int)
  | blend (img x y : Int)
  /-- `DRAWNUMR value, right_x, page` (R161). -/
  | drawnumr (value rightX page : Int)
  /-- `DRAWNUML value, left_x, page` (R162). -/
  | drawnuml (value leftX page : Int)
deriving DecidableEq, Repr

/-- `v` is an integer from `lo` to `hi`. -/
def inRange (lo hi v : Int) : Bool := decide (lo ≤ v) && decide (v ≤ hi)

/-- The three operands of a paint line: a 16-bit image address and two signed 16-bit positions (R90). -/
def paintOperands (img x y : Int) : Bool :=
  inRange 0 65535 img && inRange (-32768) 32767 x && inRange (-32768) 32767 y

/-- The operand ranges of R90 and, for the pseudo-instructions, of R160. The position of a pseudo-instruction has no
range of its own: it "must make every `x` of the expansion fit", which `assemble` checks on the expanded lines. -/
def Line.wellFormed : Line → Bool
  | .inval => true
  | .mark page => inRange 0 7 page
  | .clear => true
  | .flush => true
  | .setpix on px py => inRange 0 1 on && inRange 0 127 px && inRange 0 63 py
  | .draw img x y => paintOperands img x y
  | .clrimg img x y => paintOperands img x y
  | .blend img x y => paintOperands img x y
  | .drawnumr value _ page => inRange 0 4294967295 value && inRange 0 7 page
  | .drawnuml value _ page => inRange 0 4294967295 value && inRange 0 7 page

end Sys2Proof
end

