-- ==== Sys2Proof/Decode.lean ====
section
/-! DEFINITION. Decoding and encoding of command words (spec/30_encoding.md R71 to R78, R86, R87).
The decoder cuts fields and tests reserved bits format by format (R72 to R75); that this agrees with the mask and match
pairs of R77 is a statement of its own. -/

namespace Sys2Proof

/-- Why a word is `Illegal` (R86). -/
inductive Illegal where
  /-- R86 (a): the opcode is none of the eight. -/
  | unassignedOpcode
  /-- R86 (b): the opcode is assigned and a reserved bit of its format is 1. -/
  | reservedBit
deriving DecidableEq, Repr

/-- The `opcode` field, `cw[63:56]` in every format (R71). -/
def opcodeField (cw : CmdWord) : BitVec 8 := cw.extractLsb' 56 8

/-- The opcodes of R77. -/
def Instr.opcode : Instr → BitVec 8
  | .inval => 0x01#8
  | .mark _ => 0x02#8
  | .clear => 0x03#8
  | .flush => 0x04#8
  | .setpix _ _ _ => 0x08#8
  | .draw _ _ _ => 0x10#8
  | .clrimg _ _ _ => 0x11#8
  | .blend _ _ _ => 0x12#8

/-- Format N (R72): no operands, `cw[55:0]` reserved. -/
def decodeN (i : Instr) (cw : CmdWord) : Except Illegal Instr :=
  if cw.extractLsb' 0 56 = 0 then .ok i else .error .reservedBit

/-- Format G (R73): `page` in `cw[2:0]`, `cw[55:3]` reserved. -/
def decodeG (cw : CmdWord) : Except Illegal Instr :=
  if cw.extractLsb' 3 53 = 0 then .ok (.mark (cw.extractLsb' 0 3)) else .error .reservedBit

/-- Format X (R74): `on` in `cw[16]`, `px` in `cw[14:8]`, `py` in `cw[5:0]`; `cw[55:17]`, `cw[15]`, `cw[7:6]` reserved. -/
def decodeX (cw : CmdWord) : Except Illegal Instr :=
  if cw.extractLsb' 17 39 = 0 ∧ cw.extractLsb' 15 1 = 0 ∧ cw.extractLsb' 6 2 = 0 then
    .ok (.setpix (cw.getLsbD 16) (cw.extractLsb' 8 7) (cw.extractLsb' 0 6))
  else .error .reservedBit

/-- Format P (R75): `x` in `cw[47:32]`, `y` in `cw[31:16]`, `img` in `cw[15:0]`; `cw[55:48]` reserved. -/
def decodeP (mk : ImgAddr → BitVec 16 → BitVec 16 → Instr) (cw : CmdWord) : Except Illegal Instr :=
  if cw.extractLsb' 48 8 = 0 then
    .ok (mk (cw.extractLsb' 0 16) (cw.extractLsb' 32 16) (cw.extractLsb' 16 16))
  else .error .reservedBit

/-- `decode(cw)`, "a total function from 64-bit words to a command or `Illegal`" (R77). -/
def decode (cw : CmdWord) : Except Illegal Instr :=
  let op := opcodeField cw
  if op = 0x01#8 then decodeN .inval cw
  else if op = 0x02#8 then decodeG cw
  else if op = 0x03#8 then decodeN .clear cw
  else if op = 0x04#8 then decodeN .flush cw
  else if op = 0x08#8 then decodeX cw
  else if op = 0x10#8 then decodeP .draw cw
  else if op = 0x11#8 then decodeP .clrimg cw
  else if op = 0x12#8 then decodeP .blend cw
  else .error .unassignedOpcode

/-- A field whose lowest bit is bit `lo` of the word, every other bit 0 (R71). -/
def placeField {n : Nat} (lo : Nat) (f : BitVec n) : CmdWord := f.setWidth 64 <<< lo

/-- The fields of format P in their places (R75). -/
def encodeP (op : BitVec 8) (img : ImgAddr) (x y : BitVec 16) : CmdWord :=
  placeField 56 op ||| placeField 32 x ||| placeField 16 y ||| placeField 0 img

/-- The word that spells a command: each field in the place R72 to R75 give it, reserved bits 0. -/
def encode (i : Instr) : CmdWord :=
  match i with
  | .inval => placeField 56 i.opcode
  | .mark page => placeField 56 i.opcode ||| placeField 0 page
  | .clear => placeField 56 i.opcode
  | .flush => placeField 56 i.opcode
  | .setpix on px py =>
    placeField 56 i.opcode ||| placeField 16 (BitVec.ofBool on) ||| placeField 8 px ||| placeField 0 py
  | .draw img x y => encodeP i.opcode img x y
  | .clrimg img x y => encodeP i.opcode img x y
  | .blend img x y => encodeP i.opcode img x y

/-- The command word of a table row's number: every row has 64 bits, and the word is presented whole, so it has no
byte order (R49, R70). Bits at and above `nbits` are 0. -/
def tableWord (nbits w : Nat) : CmdWord := BitVec.ofNat 64 (w % 2 ^ nbits)

/-- The command the decoder reads from a table row's number; none for an illegal word. -/
def decodeTableWord (nbits w : Nat) : Option Instr :=
  match decode (tableWord nbits w) with
  | .ok i => some i
  | .error _ => none

end Sys2Proof
end

