-- ==== Sys2Proof/Config.lean ====
section
/-! DEFINITION. The parameters the spec leaves open (spec/00_scope.md R8) and the one free choice of the
environment, each without a body: a claim proved of the model holds for every value of them.
Of the parameters the spec fixes (R6, R7) the two memory sizes have names; the others (128 columns, 8 pages, sentinel 8,
glyph 6 by 8) are written as numerals, as the spec's own pseudocode writes them. -/

namespace Sys2Proof

/-- `FB_BYTES`, the bytes of the page store (R6). It is irreducible so that a tactic does not unroll the 1024 turns of a
loop over the store; the kernel evaluates it as any other definition. -/
@[irreducible] def Config.fbBytes : Nat := 1024

/-- The bytes of the image memory, 2 to the `IMG_ADDR_BITS` (R7, R44); irreducible for the same reason. -/
@[irreducible] def Config.imgBytes : Nat := 65536

/-- `SPLASH`: the byte of the page store at index `i`, 0 to 1023, after reset (R8, R31). -/
opaque Config.splash : Nat → Byte

/-- `IMEM`: the byte of the image memory at address `a`, 0 to 65535, for a run that begins at reset (R8, R44). -/
opaque Config.imem : Nat → Byte

/-- `DIGITS`: where the ten digit glyphs stand in `IMEM`; host side only (R8, R160). -/
opaque Config.digits : Fin 10 → ImgAddr

/-- `BUS_CMD_PREFIX`: first byte of a command-class bus message (R8, R186). -/
opaque Config.busCmdPrefix : Byte

/-- `BUS_DATA_PREFIX`: first byte of a data-class bus message (R8, R186). -/
opaque Config.busDataPrefix : Byte

/-- `BUS_DEV_ADDR`: the display's 7-bit bus address (R8, R186). -/
opaque Config.busDevAddr : BitVec 7

/-- `BUS_PAGE_RANGE_MSG`: the command-class bytes that name the pages first to last (R8, R186). -/
opaque Config.busPageRangeMsg : Nat → Nat → List Byte

/-- FREE VALUE (log entry 2): whether the display sink completes the transfer at the `n`th answer that `State.sink`
does not list. The sink "may take any time to complete a transfer; it may never complete it" (R185, U7). -/
opaque Config.sinkCompletes : Nat → Bool

end Sys2Proof
end

