-- ==== Sys2Proof/Machine/Memory.lean ====
section
/-! DEFINITION. Byte memories: the page store `FB` and the image memory `IMG` (spec/20_memory.md R40, R43, R44).
A memory is the list of its non-zero bytes, addresses rising; an address the list does not name reads as `0x00`. Every
byte of both spaces has a definite value (R52: all mapped), so the default is only how zeros are written (log entry 4). -/

namespace Sys2Proof.Machine

/-- A byte memory as a list of (address, byte) pairs. -/
abbrev Memory := List Host.Cell

/-- The canonical form over the addresses 0 to `size - 1`: addresses strictly rising, no entry equal to the byte an
unlisted address reads as. -/
abbrev Memory.wf (size : Nat) (m : Memory) : Prop :=
  m.Pairwise (fun b c => b.1 < c.1) ∧ ∀ c ∈ m, c.1 < size ∧ c.2 ≠ 0#8

/-- `MemRead`, one byte (R12). -/
def Memory.read : Memory → Nat → Byte
  | [], _ => 0#8
  | c :: m, a => if a = c.1 then c.2 else Memory.read m a

/-- The memory with no entry at `a`. -/
def Memory.erase (m : Memory) (a : Nat) : Memory := m.filter (fun c => decide (c.1 ≠ a))

/-- The memory with an entry at `a`, placed by address. -/
def Memory.insert : Memory → Nat → Byte → Memory
  | [], a, v => [(a, v)]
  | c :: m, a, v => if a < c.1 then (a, v) :: c :: m else c :: Memory.insert m a v

/-- `MemWrite`, one byte (R12); keeps the canonical form. -/
def Memory.write (m : Memory) (a : Nat) (v : Byte) : Memory :=
  if v = 0#8 then m.erase a else (m.erase a).insert a v

/-- `for j in first .. first+count-1: M[base + j] <- g j M[base + j]`, in rising order of `j`: the loop of every
command that writes a run of bytes (R112, R134, R135, R137). -/
def Memory.updateRun (m : Memory) (base first : Nat) (g : Nat → Byte → Byte) : Nat → Memory
  | 0 => m
  | n + 1 =>
    let m' := m.updateRun base first g n
    m'.write (base + (first + n)) (g (first + n) (m'.read (base + (first + n))))

/-- The memory whose `count` bytes from `lo` on are `f lo, f (lo + 1), …` and whose other bytes are `0x00`. -/
def Memory.ofFn (f : Nat → Byte) (lo : Nat) : Nat → Memory
  | 0 => []
  | n + 1 => if f lo = 0#8 then Memory.ofFn f (lo + 1) n else (lo, f lo) :: Memory.ofFn f (lo + 1) n

end Sys2Proof.Machine
end

