-- ==== Sys2Proof/Machine/State.lean ====
section
/-! DEFINITION. The state of the engine (spec/10_state.md) and of the world outside it, as plain data. -/

namespace Sys2Proof.Machine

/-- The dirty range: the two 4-bit state elements `FD` and `LD` (R24), with R25 carried in the type as
spec/93_implementation_defined.md U3 asks: clean `(8,8)`, or `0 <= FD <= LD <= 7`. -/
structure DirtyRange where
  /-- `FD`, the source's `first_dirty`. -/
  fd : BitVec 4
  /-- `LD`, the source's `last_dirty`. -/
  ld : BitVec 4
  /-- R25: one of the 37 pairs. -/
  legal : (fd.toNat = 8 ∧ ld.toNat = 8) ∨ (fd.toNat ≤ ld.toNat ∧ ld.toNat ≤ 7)
deriving DecidableEq, Repr

/-- The clean sentinel `(8,8)` (R24). -/
def DirtyRange.clean : DirtyRange := ⟨8#4, 8#4, .inl (by decide)⟩

/-- The full span `(0,7)` (R111). -/
def DirtyRange.full : DirtyRange := ⟨0#4, 7#4, .inr (by decide)⟩

/-- One flush transfer `(f, l, bytes)` (R181); `first` and `last` have the width of `disp_first`, `disp_last` (R180). -/
structure Transfer where
  first : BitVec 3
  last : BitVec 3
  bytes : List Byte
deriving DecidableEq, Repr

/-- `PHASE` (R29). -/
inductive Phase where
  /-- The engine accepts a command. -/
  | idle
  /-- `FLUSHING(f, l)`: the transfer has been handed to the display sink and has not completed. -/
  | flushing (t : Transfer)
deriving DecidableEq, Repr

/-- What has happened to a transfer at the display port. -/
inductive PortEvent where
  /-- The sink completed the transfer; it joins the observable sequence (R17 (a), R183). -/
  | completed (t : Transfer)
  /-- Reset cut the transfer of these pages short; it does not join that sequence (R222), and what the display holds
  for the pages is any value (93_implementation_defined.md U4). -/
  | cut (first last : BitVec 3)
deriving DecidableEq, Repr

/-- The two conditions that leave a sticky bit (R13, R191). -/
inductive Diagnostic where
  | unsupported
  | illegal
deriving DecidableEq, Repr

/-- Reasons to stop with a fault: none. "The engine has no exceptions, no interrupts and no traps" (60_exceptions.md),
and a bus failure is a hang, "not a fault bit" (R184, R193); so nobody raises one. -/
inductive Fault where
deriving DecidableEq, Repr

/-- Reasons to refuse. -/
inductive Refusal where
  /-- An instruction without a meaning; raised by no arm of `exec` (safe). -/
  | notModelled (mnemonic : String)
deriving DecidableEq, Repr

/-- The engine, the image memory it reads, and the agents outside it. -/
structure State where
  /-- `FB`, the page store, addresses 0 to 1023 (R23, R40). -/
  fb : Memory
  /-- `FD`, `LD` (R24). -/
  dirty : DirtyRange
  /-- `UNSUP` (R27). -/
  unsup : Bool
  /-- `ILL` (R28). -/
  ill : Bool
  /-- `PHASE` with its in-flight transfer (R29). -/
  phase : Phase
  /-- `IMEM`, addresses 0 to 65535 (R44); no step changes it (R226, log entry 5). -/
  imem : Memory
  /-- The words the host is still to present, the head being on the command port (R70, R227, log entry 1). -/
  host : List CmdWord
  /-- The coming samples of `rst`, one per step; unlisted samples are 0 (R221, log entry 3). -/
  rst : List Bool
  /-- The coming answers of the display sink, one per waiting step, true when it completes the transfer; unlisted
  answers are the free value `Config.sinkCompletes` (R185, log entry 2). -/
  sink : List Bool
  /-- How many answers were taken from `Config.sinkCompletes` (log entry 2). -/
  waits : Nat
  /-- What has happened at the display port, oldest first: completed and cut transfers (R183, R222, log entry 9). -/
  history : List PortEvent
deriving DecidableEq, Repr

/-- `SPLASH` as a page store (R31). -/
def splashStore : Memory := Memory.ofFn Config.splash 0 Config.fbBytes

/-- The state right after power-on reset (R31, R220), with `IMEM` the open parameter and nothing yet scheduled outside
the engine. -/
def State.reset : State where
  fb := splashStore
  dirty := .full
  unsup := false
  ill := false
  phase := .idle
  imem := Memory.ofFn Config.imem 0 Config.imgBytes
  host := []
  rst := []
  sink := []
  waits := 0
  history := []

end Sys2Proof.Machine
end

