-- ==== Sys2Proof/Machine/Flags.lean ====
section
/-! DEFINITION. What an observer outside the engine sees (spec/00_scope.md R17): the derived flags and the status register
(spec/10_state.md R30, R33), readiness (spec/30_encoding.md R70), the completed transfers. -/

namespace Sys2Proof.Machine

/-- The test for clean reads `FD` alone: clean is `FD > 7` (R24). -/
def DirtyRange.isClean (d : DirtyRange) : Bool := decide (7 < d.fd.toNat)

/-- `DIRTY`: 1 if `FD <= 7` (R30). -/
def isDirty (s : State) : Bool := !s.dirty.isClean

/-- `BUSY`: 1 if `PHASE` is `FLUSHING` (R30). -/
def isBusy (s : State) : Bool :=
  match s.phase with
  | .idle => false
  | .flushing _ => true

/-- `STATUS`, bits 15:12 zero, then `ILL`, `UNSUP`, `BUSY`, `DIRTY`, `LD`, `FD` (R30). -/
def status (s : State) : BitVec 16 :=
  0#4 ++ BitVec.ofBool s.ill ++ BitVec.ofBool s.unsup ++ BitVec.ofBool (isBusy s) ++ BitVec.ofBool (isDirty s)
    ++ s.dirty.ld ++ s.dirty.fd

/-- `cmd_ready`: 1 exactly when `PHASE` is `IDLE`; between transitions the engine is never in the middle of a command
(R16, R70). -/
def cmdReady (s : State) : Bool := !isBusy s

/-- The transfer an event completes, if it completes one. -/
def PortEvent.completed? (e : PortEvent) : Option Transfer :=
  match e with
  | .completed t => some t
  | .cut _ _ => none

/-- "the sequence of completed flush transfers" (R17 (a)), oldest first. -/
def State.sent (s : State) : List Transfer := s.history.filterMap PortEvent.completed?

end Sys2Proof.Machine
end

