-- ==== Sys2Proof/Machine/Operands.lean ====
section
/-! DEFINITION. Operand assembly, image descriptors and column clipping (spec/30_encoding.md R76, spec/20_memory.md
R44 to R46, spec/42_blit.md R131, R138). -/

namespace Sys2Proof.Machine

/-- `sext_16`: a 16-bit field as a two's complement integer (R11, R76). -/
def sext16 (f : BitVec 16) : Int := f.toInt

/-- The page operand of `MARK` as a page number 0 to 7 (R76). -/
def pageOperand (f : BitVec 3) : Fin 8 := f.toFin

/-- `IMG[a]`: the address is reduced modulo 65536 (R12, R46). -/
def imgRead (s : State) (a : Nat) : Byte := s.imem.read (a % 65536)

/-- The width of the image at `img`, 0 to 255 (R131). -/
def imgWidth (s : State) (img : ImgAddr) : Nat := (imgRead s img.toNat).toNat

/-- The height of the image at `img`, 0 to 255 (R131). -/
def imgHeight (s : State) (img : ImgAddr) : Nat := (imgRead s (img.toNat + 1)).toNat

/-- `D(k)`, data byte `k` of the image at `img` (R131). -/
def imgData (s : State) (img : ImgAddr) (k : Nat) : Byte := imgRead s (img.toNat + 2 + k)

/-- `c0 = max(x, 0)` (R138). -/
def clipFirst (x : Int) : Nat := (max x 0).toNat

/-- `c1 = min(x + w, 128)`, one past the last column (R138). -/
def clipEnd (x : Int) (w : Nat) : Nat := (min (x + w) 128).toNat

/-- `first_row`, the upper affected page of the misaligned path: -1 when `y < 0`, else `y div 8` (R136). -/
def firstRow (y : Int) : Int := if y < 0 then -1 else y / 8

/-- `rem = (y + 8) mod 8` (R136). -/
def shiftRem (y : Int) : Nat := ((y + 8) % 8).toNat

/-- The store index of the pixel at column `px`, row `py` (R41, R170). -/
def pixelIndex (px : BitVec 7) (py : BitVec 6) : Nat := py.toNat / 8 * 128 + px.toNat

/-- `mask = 1 << (py mod 8)` (R170). -/
def pixelMask (py : BitVec 6) : Byte := 1#8 <<< (py.toNat % 8)

end Sys2Proof.Machine
end

