-- ==== Sys2Proof/Machine/Operator.lean ====
section
/-! DEFINITION. The compositing operator (spec/40_compositing_operator.md R100 to R106). -/

namespace Sys2Proof.Machine

/-- The variant set {Set, Clear, Over} of R100. -/
inductive Operator where
  | set
  | clear
  | over
deriving DecidableEq, Repr

/-- `op(o, d, s)`: the new destination byte from destination byte `d` and source byte `s` (R100). -/
def opByte (o : Operator) (d s : Byte) : Byte :=
  match o with
  | .set => s
  | .clear => d &&& ~~~s
  | .over => d ||| s

end Sys2Proof.Machine
end

