-- ==== Sys2Proof/Machine/Ops.lean ====
section
/-! DEFINITION. The shared operations: marking, invalidating, raising a diagnostic, painting one page, starting and
ending a flush, reset (spec/41_framebuffer_dirty.md, spec/42_blit.md, spec/45_display_port.md, spec/70_reset_and_hazards.md). -/

namespace Sys2Proof.Machine

/-- `MarkDirty(p)` on the pair (R110): from clean `(p, p)`, else the least span that holds the old one and `p`. -/
def DirtyRange.mark (d : DirtyRange) (p : Fin 8) : DirtyRange :=
  if h : 7 < d.fd.toNat then
    ⟨BitVec.ofNat 4 p, BitVec.ofNat 4 p, by
      have := p.isLt; simp only [BitVec.toNat_ofNat]; omega⟩
  else
    ⟨BitVec.ofNat 4 (min d.fd.toNat p), BitVec.ofNat 4 (max d.ld.toNat p), by
      have := p.isLt; have := d.legal; simp only [BitVec.toNat_ofNat]; omega⟩

/-- `MarkDirty(p)` (R110). -/
def markDirty (p : Fin 8) (s : State) : State := { s with dirty := s.dirty.mark p }

/-- `Invalidate()` (R111). -/
def invalidate (s : State) : State := { s with dirty := .full }

/-- `raise Unsupported` and `raise Illegal` (R13): the sticky bit is set and nothing else changes. This is all that
takes the place of an exception: "There is no trap entry" (R198) and no return from one (R199). -/
def raise (d : Diagnostic) (s : State) : State :=
  match d with
  | .unsupported => { s with unsup := true }
  | .illegal => { s with ill := true }

/-- The page store with `g` applied to a run of bytes (R43). -/
def updateStore (base first count : Nat) (g : Nat → Byte → Byte) (s : State) : State :=
  { s with fb := s.fb.updateRun base first g count }

/-- `FB[i] <- v` (R12). -/
def writeStore (i : Nat) (v : Byte) (s : State) : State := { s with fb := s.fb.write i v }

/-- The clipped columns of one page: every destination column `c` of R138 gets `op(o, FB[p*128 + c], f (D(c - x)))`,
then the page is marked dirty (R135 with `f` the identity, R137 with `f` a shift). -/
def paintPage (o : Operator) (f : Byte → Byte) (img : ImgAddr) (x : Int) (p : Fin 8) (s : State) : State :=
  markDirty p
    (updateStore (p * 128) (clipFirst x) (clipEnd x (imgWidth s img) - clipFirst x)
      (fun c d => opByte o d (f (imgData s img (c - x).toNat))) s)

/-- `paintPage` on page `n`; "A page outside `[0,7]` is simply skipped" (R137). -/
def paintPageAt (o : Operator) (f : Byte → Byte) (img : ImgAddr) (x n : Int) (s : State) : State :=
  if h : 0 ≤ n ∧ n ≤ 7 then paintPage o f img x ⟨n.toNat, by omega⟩ s else s

/-- The bytes of pages `f` to `l`, `FB[f*128]` to `FB[(l+1)*128 - 1]` in ascending order (R48, R181). -/
def pageBytes (fb : Memory) (f l : Nat) : List Byte :=
  (List.range ((l + 1 - f) * 128)).map (fun k => fb.read (f * 128 + k))

/-- `DispSend(FD, LD, bytes)`: the transfer a dirty `FLUSH` hands over (R116, R181). -/
def flushTransfer (s : State) : Transfer :=
  ⟨BitVec.ofNat 3 s.dirty.fd.toNat, BitVec.ofNat 3 s.dirty.ld.toNat, pageBytes s.fb s.dirty.fd.toNat s.dirty.ld.toNat⟩

/-- The *start* transition of a dirty `FLUSH` (R116). -/
def startFlush (s : State) : State := { s with phase := .flushing (flushTransfer s) }

/-- The *complete* transition (R116, R183): the range is cleaned, the engine is idle, the transfer joins the observable
sequence. -/
def completeFlush (t : Transfer) (s : State) : State :=
  { s with dirty := .clean, phase := .idle, history := s.history ++ [.completed t] }

/-- Whether the sink completes the transfer at this step: its next listed answer, else the free value (R185, U7). -/
def sinkAnswer (s : State) : Bool :=
  match s.sink with
  | b :: _ => b
  | [] => Config.sinkCompletes s.waits

/-- The sink's answer is used up. -/
def takeSinkAnswer (s : State) : State :=
  match s.sink with
  | _ :: rest => { s with sink := rest }
  | [] => { s with waits := s.waits + 1 }

/-- One step of a started flush: it completes, or the engine waits with nothing changed (R183, R184). -/
def flushStep (t : Transfer) (s : State) : State :=
  if sinkAnswer s then completeFlush t (takeSinkAnswer s) else takeSinkAnswer s

/-- The sample of `rst` this step takes (R221). -/
def rstSample (s : State) : Bool := s.rst.headD false

/-- The sample of `rst` is used up. -/
def takeRstSample (s : State) : State := { s with rst := s.rst.tail }

/-- The port's history after a reset: a transfer in flight is cut short (R222, U4). -/
def cutFlush (s : State) : List PortEvent :=
  match s.phase with
  | .idle => s.history
  | .flushing t => s.history ++ [.cut t.first t.last]

/-- Reset of a running engine (R220, R222): every state element of R31 at its reset value; a transfer in flight is cut
and does not join the observable sequence. The image memory, the host's words and the sink are outside the engine. -/
def resetEngine (s : State) : State :=
  { s with fb := splashStore, dirty := .full, unsup := false, ill := false, phase := .idle, history := cutFlush s }

/-- The host's word has been taken from the command port (R70). -/
def takeHostWord (s : State) : State := { s with host := s.host.tail }

end Sys2Proof.Machine
end

