-- ==== Sys2Proof/Machine/Blit.lean ====
section
/-! DEFINITION. The blit engine: `DRAW`, `CLRIMG`, `BLEND` (spec/42_blit.md). -/

namespace Sys2Proof.Machine

/-- Step 1: fully off screen (R132). -/
def offScreen (x y : Int) (w h : Nat) : Bool :=
  decide (y > 63 ∨ x > 127 ∨ x + w ≤ 0 ∨ y + h ≤ 0)

/-- Step 2, full-screen path (R134). -/
def paintFull (o : Operator) (img : ImgAddr) (s : State) : State :=
  invalidate (updateStore 0 0 Config.fbBytes (fun i d => opByte o d (imgData s img i)) s)

/-- Step 3, page-aligned path (R135): page `y div 8`, no shift. -/
def paintAligned (o : Operator) (img : ImgAddr) (x y : Int) (s : State) : State :=
  paintPageAt o id img x (y / 8) s

/-- Step 4, misaligned path (R136, R137): the upper page gets each source byte shifted right by `rem`, the lower page
gets it shifted left by `8 - rem`. The directions are the spec's bytes (90_conflicts.md C1), not a translation. -/
def paintMisaligned (o : Operator) (img : ImgAddr) (x y : Int) (s : State) : State :=
  paintPageAt o (fun b => b <<< (8 - shiftRem y)) img x (firstRow y + 1)
    (paintPageAt o (fun b => b >>> shiftRem y) img x (firstRow y) s)

/-- `Paint(o, img, x, y)` (R130): the descriptor, then the path selection of R132 and R133. -/
def paint (o : Operator) (img : ImgAddr) (x y : Int) (s : State) : State :=
  let w := imgWidth s img
  let h := imgHeight s img
  if offScreen x y w h then s
  else if x = 0 ∧ y = 0 ∧ w = 128 ∧ h = 64 then paintFull o img s
  else if h = 8 ∧ y % 8 = 0 then paintAligned o img x y s
  else if h = 8 then paintMisaligned o img x y s
  else raise .unsupported s

/-- `DRAW img, x, y` (R140): paint with Set. -/
def execDraw (img : ImgAddr) (x y : BitVec 16) (s : State) : Host.Outcome State Fault Refusal :=
  .next (paint .set img (sext16 x) (sext16 y) s)

/-- `CLRIMG img, x, y` (R141): paint with Clear. -/
def execClrimg (img : ImgAddr) (x y : BitVec 16) (s : State) : Host.Outcome State Fault Refusal :=
  .next (paint .clear img (sext16 x) (sext16 y) s)

/-- `BLEND img, x, y` (R142): paint with Over. -/
def execBlend (img : ImgAddr) (x y : BitVec 16) (s : State) : Host.Outcome State Fault Refusal :=
  .next (paint .over img (sext16 x) (sext16 y) s)

end Sys2Proof.Machine
end

