-- ==== Sys2Proof/Machine/Dirty.lean ====
section
/-! DEFINITION. `INVAL`, `MARK`, `CLEAR`, `FLUSH` (spec/41_framebuffer_dirty.md). -/

namespace Sys2Proof.Machine

/-- `INVAL` (R113). -/
def execInval (s : State) : Host.Outcome State Fault Refusal := .next (invalidate s)

/-- `MARK page` (R114). -/
def execMark (page : BitVec 3) (s : State) : Host.Outcome State Fault Refusal :=
  .next (markDirty (pageOperand page) s)

/-- `CLEAR` (R112): "zeroes all 1024 bytes, then invalidates". -/
def execClear (s : State) : Host.Outcome State Fault Refusal :=
  .next (invalidate (updateStore 0 0 Config.fbBytes (fun _ _ => 0x00#8) s))

/-- `FLUSH`: a clean range does nothing (R115); a dirty one starts a transfer (R116), which later steps complete. -/
def execFlush (s : State) : Host.Outcome State Fault Refusal :=
  .next (if s.dirty.isClean then s else startFlush s)

end Sys2Proof.Machine
end

