-- ==== Sys2Proof/Machine/Pixel.lean ====
section
/-! DEFINITION. The pixel writer (spec/44_pixel_writer.md). -/

namespace Sys2Proof.Machine

/-- `SETPIX on, px, py` (R170): one bit of the store, then `Invalidate()`, never `MarkDirty(py div 8)`. -/
def execSetpix (on : Bool) (px : BitVec 7) (py : BitVec 6) (s : State) : Host.Outcome State Fault Refusal :=
  let i := pixelIndex px py
  let old := s.fb.read i
  .next (invalidate (writeStore i (if on then old ||| pixelMask py else old &&& ~~~(pixelMask py)) s))

end Sys2Proof.Machine
end

