-- ==== Sys2Proof/Machine/Dispatch.lean ====
section
/-! DEFINITION. One arm per command. -/

namespace Sys2Proof.Machine

/-- The meaning of a command the engine has taken. -/
def exec (i : Instr) (s : State) : Host.Outcome State Fault Refusal :=
  match i with
  | .inval => Sys2Proof.Machine.execInval s
  | .mark page => Sys2Proof.Machine.execMark page s
  | .clear => Sys2Proof.Machine.execClear s
  | .flush => Sys2Proof.Machine.execFlush s
  | .setpix on px py => Sys2Proof.Machine.execSetpix on px py s
  | .draw img x y => Sys2Proof.Machine.execDraw img x y s
  | .clrimg img x y => Sys2Proof.Machine.execClrimg img x y s
  | .blend img x y => Sys2Proof.Machine.execBlend img x y s

end Sys2Proof.Machine
end

