-- ==== Sys2Proof/Machine/Sequencer.lean ====
section
/-! DEFINITION. What one step does: reset, a waiting flush, or the next command word (spec/00_scope.md R16,
spec/30_encoding.md R70, spec/70_reset_and_hazards.md R221, R227). -/

namespace Sys2Proof.Machine

/-- The engine takes the word `cw`: a legal word is executed, an illegal one performs `raise Illegal` (R77, R86). -/
def acceptWord (cw : CmdWord) (s : State) : Host.Outcome State Fault Refusal :=
  match decode cw with
  | .ok i => exec i s
  | .error _ => .next (raise .illegal s)

/-- The command port when the engine is ready: with no word on it nothing happens (R70). -/
def portStep (s : State) : Host.Outcome State Fault Refusal :=
  match s.host with
  | [] => .next s
  | cw :: _ => acceptWord cw (takeHostWord s)

/-- One step. While `rst` is 1 "the state is held at the reset values and no command is taken" (R221); while a flush is
in flight no command is taken either, the host holds its word (R29, R227); else the port is served. -/
def advance (s : State) : Host.Outcome State Fault Refusal :=
  if rstSample s then .next (resetEngine (takeRstSample s))
  else
    match s.phase with
    | .flushing t => .next (flushStep t (takeRstSample s))
    | .idle => portStep (takeRstSample s)

end Sys2Proof.Machine
end

