-- ==== Sys2Proof/Machine/Step.lean ====
section
/-! DEFINITION. The step function, and how one command word is put before it. -/

namespace Sys2Proof.Machine

/-- One step of the machine. -/
def step (s : State) : Host.Outcome State Fault Refusal := advance s

/-- The word of a table row on the command port, before the words the host already holds, with the engine ready to take
it (R70: `cmd_ready` is 1 only in `IDLE`, and `rst` is 0 at this step). It stands for the host presenting that word
(log entry 1). -/
def State.withFetchWord (s : State) (nbits w : Nat) : State :=
  { s with phase := .idle, rst := false :: s.rst, host := tableWord nbits w :: s.host }

end Sys2Proof.Machine
end

