-- ==== Sys2Proof/Machine/Numbers.lean ====
section
/-! DEFINITION. The host-side expansions of the pseudo-instructions (spec/43_number_renderer.md R160 to R163). `digits`
is the parameter `DIGITS` of spec/00_scope.md R8. -/

namespace Sys2Proof.Machine

/-- The line that draws the glyph of the digit `d mod 10` at `x` on page `page`: `DRAW DIGITS[d], x, 8*page` (R160). -/
def glyphLine (digits : Fin 10 → ImgAddr) (d : Nat) (x page : Int) : Line :=
  .draw ((digits ⟨d % 10, Nat.mod_lt d (by decide)⟩).toNat : Int) x (8 * page)

/-- The loop of R161: least significant digit first, each glyph 6 columns left of the one before, while `v > 0`. The
first argument bounds the turns; ten suffice for the values of R160 (log entry 11). -/
def rightGlyphs (digits : Fin 10 → ImgAddr) (page : Int) : Nat → Nat → Int → List Line
  | 0, _, _ => []
  | n + 1, v, x =>
    if v = 0 then []
    else glyphLine digits (v % 10) (x - 6) page :: rightGlyphs digits page n (v / 10) (x - 6)

/-- `DRAWNUMR value, right_x, page` (R161): the glyphs, then `MARK page` in every case. -/
def expandRight (digits : Fin 10 → ImgAddr) (value : Nat) (rightX page : Int) : List Line :=
  rightGlyphs digits page 10 value rightX ++ [.mark page]

/-- `buf[j]`, the digits most significant first (R162). -/
def bufDigit (value j : Nat) : Nat := value / 10 ^ (9 - j) % 10

/-- `s`: the least slot that is not zero; "if there is none, s <- 9" (R162). -/
def firstSlot (value : Nat) : Nat :=
  ((List.range 10).find? (fun j => decide (bufDigit value j ≠ 0))).getD 9

/-- `DRAWNUML value, left_x, page` (R162): slots `s` to 9 left to right, then `MARK page`. -/
def expandLeft (digits : Fin 10 → ImgAddr) (value : Nat) (leftX page : Int) : List Line :=
  (List.range (10 - firstSlot value)).map
      (fun k => glyphLine digits (bufDigit value (firstSlot value + k)) (leftX + 6 * k) page)
    ++ [.mark page]

/-- The command lines a line stands for; "There is no other pseudo-instruction" (R91). -/
def expandLine (l : Line) (digits : Fin 10 → ImgAddr := Config.digits) : List Line :=
  match l with
  | .drawnumr value rightX page => expandRight digits value.toNat rightX page
  | .drawnuml value leftX page => expandLeft digits value.toNat leftX page
  | .inval => [.inval]
  | .mark page => [.mark page]
  | .clear => [.clear]
  | .flush => [.flush]
  | .setpix on px py => [.setpix on px py]
  | .draw img x y => [.draw img x y]
  | .clrimg img x y => [.clrimg img x y]
  | .blend img x y => [.blend img x y]

end Sys2Proof.Machine
end

