-- ==== Sys2Proof/Machine/Assembler.lean ====
section
/-! DEFINITION. From assembler lines to commands (spec/30_encoding.md R90, R91). -/

namespace Sys2Proof.Machine

/-- The command of a line whose operands are in range; none for a pseudo-instruction. -/
def lineInstr : Line → Option Instr
  | .inval => some .inval
  | .mark page => some (.mark (BitVec.ofInt 3 page))
  | .clear => some .clear
  | .flush => some .flush
  | .setpix on px py => some (.setpix (decide (on = 1)) (BitVec.ofInt 7 px) (BitVec.ofInt 6 py))
  | .draw img x y => some (.draw (BitVec.ofInt 16 img) (BitVec.ofInt 16 x) (BitVec.ofInt 16 y))
  | .clrimg img x y => some (.clrimg (BitVec.ofInt 16 img) (BitVec.ofInt 16 x) (BitVec.ofInt 16 y))
  | .blend img x y => some (.blend (BitVec.ofInt 16 img) (BitVec.ofInt 16 x) (BitVec.ofInt 16 y))
  | .drawnumr _ _ _ => none
  | .drawnuml _ _ _ => none

/-- One command line; "An operand outside the stated range cannot be encoded and the assembler refuses the line" (R90). -/
def assembleCommand (l : Line) : Option Instr := if l.wellFormed then lineInstr l else none

/-- Any line: its expansion, command by command; refused when the line or a line of its expansion is out of range
(R90, R160). -/
def assemble (l : Line) (digits : Fin 10 → ImgAddr := Config.digits) : Option (List Instr) :=
  if l.wellFormed then (expandLine l digits).mapM assembleCommand else none

end Sys2Proof.Machine
end

