-- ==== Sys2Proof/Machine/Listing.lean ====
section
/-! DEFINITION. The text of an assembler listing (spec/30_encoding.md R90, R91): from characters to lines, and from a
listing to the words the host presents. What R90 leaves open of the text is settled in log entry 12. -/

namespace Sys2Proof.Machine

/-- The mnemonics of R90 and R91. -/
inductive Mnemonic where
  | inval | mark | clear | flush | setpix | draw | clrimg | blend | drawnumr | drawnuml
deriving DecidableEq, Repr

/-- The mnemonic "in capitals" (R90, R91). -/
def Mnemonic.capitals : Mnemonic → String
  | .inval => "INVAL"
  | .mark => "MARK"
  | .clear => "CLEAR"
  | .flush => "FLUSH"
  | .setpix => "SETPIX"
  | .draw => "DRAW"
  | .clrimg => "CLRIMG"
  | .blend => "BLEND"
  | .drawnumr => "DRAWNUMR"
  | .drawnuml => "DRAWNUML"

/-- "The source's own names are accepted as aliases, lower case, same operands" (R90); the pseudo-instructions have no
alias in that list. -/
def Mnemonic.sourceName : Mnemonic → Option String
  | .inval => some "invalidate"
  | .mark => some "mark_dirty"
  | .clear => some "clear"
  | .flush => some "flush"
  | .setpix => some "set_pixel"
  | .draw => some "draw"
  | .clrimg => some "clear_image"
  | .blend => some "blend"
  | .drawnumr => none
  | .drawnuml => none

/-- Every mnemonic. -/
def Mnemonic.all : List Mnemonic :=
  [.inval, .mark, .clear, .flush, .setpix, .draw, .clrimg, .blend, .drawnumr, .drawnuml]

/-- `name` is written for the mnemonic `m`. -/
def Mnemonic.spelledBy (m : Mnemonic) (name : List Char) : Bool :=
  name == m.capitals.toList || m.sourceName.map String.toList == some name

/-- The mnemonic a name stands for. -/
def readMnemonic (name : List Char) : Option Mnemonic := Mnemonic.all.find? (fun m => m.spelledBy name)

/-- The separators of a line's words: space and tab. -/
def isBlank (c : Char) : Bool := c == ' ' || c == '\t'

/-- A text without the blanks at its two ends. -/
def trimBlanks (t : List Char) : List Char := ((t.dropWhile isBlank).reverse.dropWhile isBlank).reverse

/-- The parts of a text between its commas. -/
def splitCommas : List Char → List (List Char)
  | [] => [[]]
  | c :: t =>
    if c = ',' then [] :: splitCommas t
    else
      match splitCommas t with
      | [] => [[c]]
      | part :: parts => (c :: part) :: parts

/-- A digit of the base, hex letters of either case. -/
def readDigit (base : Nat) (c : Char) : Option Nat :=
  let v :=
    if '0' ≤ c ∧ c ≤ '9' then c.toNat - '0'.toNat
    else if 'a' ≤ c ∧ c ≤ 'f' then c.toNat - 'a'.toNat + 10
    else if 'A' ≤ c ∧ c ≤ 'F' then c.toNat - 'A'.toNat + 10
    else base
  if v < base then some v else none

/-- The digits read so far are worth `acc`. -/
def readDigits (base : Nat) : Nat → List Char → Option Nat
  | acc, [] => some acc
  | acc, c :: t =>
    match readDigit base c with
    | some d => readDigits base (acc * base + d) t
    | none => none

/-- One digit or more. -/
def readNat (base : Nat) (t : List Char) : Option Nat := if t = [] then none else readDigits base 0 t

/-- "Numbers are decimal, optionally signed, or hex with `0x`" (R90). -/
def readNumber (t : List Char) : Option Int :=
  match t with
  | '0' :: 'x' :: hex => (readNat 16 hex).map Int.ofNat
  | '-' :: dec => (readNat 10 dec).map (fun n => -(n : Int))
  | '+' :: dec => (readNat 10 dec).map Int.ofNat
  | dec => (readNat 10 dec).map Int.ofNat

/-- The symbols a listing defines, with their addresses (R90). -/
abbrev Symbols := List (List Char × Int)

/-- "An image operand is a 16-bit address, written as a number or as a symbol the listing defines" (R90). -/
def readImage (symbols : Symbols) (t : List Char) : Option Int :=
  match symbols.lookup t with
  | some a => some a
  | none => readNumber t

/-- The line of a mnemonic and its operands' texts, in the order of R90 and R91; none for a wrong number of operands. -/
def readLine (symbols : Symbols) (m : Mnemonic) (ops : List (List Char)) : Option Line :=
  match m, ops with
  | .inval, [] => some .inval
  | .mark, [p] => do return .mark (← readNumber p)
  | .clear, [] => some .clear
  | .flush, [] => some .flush
  | .setpix, [on, px, py] => do return .setpix (← readNumber on) (← readNumber px) (← readNumber py)
  | .draw, [i, x, y] => do return .draw (← readImage symbols i) (← readNumber x) (← readNumber y)
  | .clrimg, [i, x, y] => do return .clrimg (← readImage symbols i) (← readNumber x) (← readNumber y)
  | .blend, [i, x, y] => do return .blend (← readImage symbols i) (← readNumber x) (← readNumber y)
  | .drawnumr, [v, x, p] => do return .drawnumr (← readNumber v) (← readNumber x) (← readNumber p)
  | .drawnuml, [v, x, p] => do return .drawnuml (← readNumber v) (← readNumber x) (← readNumber p)
  | _, _ => none

/-- One line of text, its comment dropped (R90): `some none` when nothing is left, none when it cannot be read. -/
def parseLine (symbols : Symbols) (text : List Char) : Option (Option Line) :=
  let body := trimBlanks (text.takeWhile (fun c => c ≠ ';'))
  let rest := trimBlanks (body.dropWhile (fun c => !isBlank c))
  let ops := if rest = [] then [] else (splitCommas rest).map trimBlanks
  if body = [] then some none
  else
    match readMnemonic (body.takeWhile (fun c => !isBlank c)) with
    | some m => (readLine symbols m ops).map some
    | none => none

/-- The words a line of text puts on the command port; none when the assembler refuses it. -/
def assembleText (symbols : Symbols) (digits : Fin 10 → ImgAddr) (text : List Char) : Option (List CmdWord) :=
  match parseLine symbols text with
  | some (some l) => (assemble l digits).map (fun is => is.map encode)
  | some none => some []
  | none => none

/-- The words of a listing, line by line (R90). DESIGN CHOICE (log entry 12): R90 says that the assembler refuses a line
and nothing of the listing's other lines; here one refused line leaves the whole listing without words. -/
def assembleListing (symbols : Symbols) (digits : Fin 10 → ImgAddr) (lines : List (List Char)) : Option (List CmdWord) :=
  (lines.mapM (assembleText symbols digits)).map List.flatten

/-- The host has a listing's words to present after those it holds already (R21, R227). -/
def presentWords (words : List CmdWord) (s : State) : State := { s with host := s.host ++ words }

end Sys2Proof.Machine
end

