-- ==== Sys2Proof/Machine/Port.lean ====
section
/-! DEFINITION. A flush transfer as the display port and the bus carry it (spec/45_display_port.md R180, R186). The
engine's rules stop at the transfer `(f, l, bytes)`; these functions read no state and no step calls them. -/

namespace Sys2Proof.Machine

/-- One beat of the display port: `disp_first`, `disp_last`, `disp_byte`, `disp_eot` while `disp_valid` is 1 (R180). -/
structure Beat where
  first : BitVec 3
  last : BitVec 3
  byte : Byte
  eot : Bool
deriving DecidableEq, Repr

/-- The beats of a transfer: the page range constant, one byte a beat, `disp_eot` on the last (R180). -/
def transferBeats (t : Transfer) : List Beat :=
  (List.range t.bytes.length).map
    (fun k => ⟨t.first, t.last, t.bytes.getD k 0x00#8, decide (k + 1 = t.bytes.length)⟩)

/-- A bus message: the device it is addressed to, the one-byte class mark in front, the bytes (R182, R186). -/
structure BusMessage where
  device : BitVec 7
  lead : Byte
  payload : List Byte
deriving DecidableEq, Repr

/-- The wire form of a transfer: "a command-class message that names pages", then one data-class message (R186). -/
def transferMessages (t : Transfer) : List BusMessage :=
  [⟨Config.busDevAddr, Config.busCmdPrefix, Config.busPageRangeMsg t.first.toNat t.last.toNat⟩,
   ⟨Config.busDevAddr, Config.busDataPrefix, t.bytes⟩]

end Sys2Proof.Machine
end

