-- ==== Sys2Proof/Safety.lean ====
section
/-! DEFINITION. The terms claims are made in: the invariant, the dirty range's meaning, the pixel mapping, what the host
and the display can see. -/

namespace Sys2Proof.Machine

/-- Page `p` (0 to 7) lies in the dirty range (R24, R26). -/
abbrev DirtyRange.covers (d : DirtyRange) (p : Nat) : Prop := d.fd.toNat ≤ p ∧ p ≤ d.ld.toNat

/-- A transfer has `0 <= f <= l <= 7` and exactly `(l - f + 1)*128` bytes (R181). -/
abbrev Transfer.wf (t : Transfer) : Prop :=
  t.first.toNat ≤ t.last.toNat ∧ t.bytes.length = (t.last.toNat - t.first.toNat + 1) * 128

/-- What a transfer in flight is (R29, R54 (4)): it names the dirty range, and its bytes are those of `FB` still. -/
abbrev State.inFlight (s : State) : Prop :=
  match s.phase with
  | .idle => True
  | .flushing t =>
    t.wf ∧ t.first.toNat = s.dirty.fd.toNat ∧ t.last.toNat = s.dirty.ld.toNat ∧
      t.bytes = pageBytes s.fb t.first.toNat t.last.toNat

/-- The invariant of the machine: both memories canonical and inside their address spaces (R40, R44), the transfer in
flight as R29 says, every completed transfer as R181 says. -/
structure State.Inv (s : State) : Prop where
  fb : s.fb.wf 1024
  imem : s.imem.wf 65536
  inFlight : s.inFlight
  sent : ∀ t ∈ s.sent, t.wf

/-- The 128 bytes a transfer carries for page `p`, if it carries that page (R48). -/
def Transfer.page (t : Transfer) (p : Nat) : Option (List Byte) :=
  if t.first.toNat ≤ p ∧ p ≤ t.last.toNat then
    some ((t.bytes.drop ((p - t.first.toNat) * 128)).take 128)
  else none

/-- What one event at the port makes of `SHADOW` page `p`: a completed transfer of the page sets it, a cut one makes it
unknown (93_implementation_defined.md U4), and an event of other pages leaves it. -/
def PortEvent.shadow (p : Nat) (last : Option (List Byte)) (e : PortEvent) : Option (List Byte) :=
  match e with
  | .completed t => (t.page p).or last
  | .cut f l => if f.toNat ≤ p ∧ p ≤ l.toNat then none else last

/-- The ghost `SHADOW` of R26: what the display sink last received for page `p`; none is unknown, as it is for "a page
never sent" (R26) and for a page of a transfer that reset cut, until it is sent again (U4). -/
def shadowPage (history : List PortEvent) (p : Nat) : Option (List Byte) := history.foldl (PortEvent.shadow p) none

/-- R26: every page outside the dirty range is known to `SHADOW`, and holds there the bytes `FB` holds. -/
def State.Conservative (s : State) : Prop :=
  ∀ p < 8, ¬ s.dirty.covers p → shadowPage s.history p = some (pageBytes s.fb p p)

/-- The pixel at column `x`, row `y`: bit `y mod 8` of `FB[(y div 8)*128 + x]` (R41). -/
def pixel (fb : Memory) (x y : Nat) : Bool := (fb.read (y / 8 * 128 + x)).getLsbD (y % 8)

/-- The paint command of an operator: `DRAW`, `CLRIMG`, `BLEND` (R78). -/
def paintInstr (o : Operator) (img : ImgAddr) (x y : BitVec 16) : Instr :=
  match o with
  | .set => .draw img x y
  | .clear => .clrimg img x y
  | .over => .blend img x y

/-- The step takes a command: `rst` is 0, the engine idle, a word on the port that spells `i` (R70, R77). -/
def Takes (s : State) (i : Instr) : Prop :=
  rstSample s = false ∧ s.phase = .idle ∧ ∃ cw rest, s.host = cw :: rest ∧ decode cw = .ok i

/-- The step completes a transfer: `rst` is 0, a flush is in flight, the sink answers (R183). -/
def Completes (s : State) (t : Transfer) : Prop :=
  rstSample s = false ∧ s.phase = .flushing t ∧ sinkAnswer s = true

/-- The page range of a flush in flight, without its bytes. -/
def Phase.pages : Phase → Option (BitVec 3 × BitVec 3)
  | .idle => none
  | .flushing t => some (t.first, t.last)

/-- What an event at the port tells without its bytes: whether the transfer completed, and its pages. -/
def PortEvent.pages (e : PortEvent) : Bool × BitVec 3 × BitVec 3 :=
  match e with
  | .completed t => (true, t.first, t.last)
  | .cut f l => (false, f, l)

/-- Two states that differ in the page store at most, and so in bytes on their way to the sink or already sent. -/
structure SameButStore (s t : State) : Prop where
  dirty : s.dirty = t.dirty
  unsup : s.unsup = t.unsup
  ill : s.ill = t.ill
  phase : s.phase.pages = t.phase.pages
  imem : s.imem = t.imem
  host : s.host = t.host
  rst : s.rst = t.rst
  sink : s.sink = t.sink
  waits : s.waits = t.waits
  history : s.history.map PortEvent.pages = t.history.map PortEvent.pages

end Sys2Proof.Machine
end

