-- ==== Sys2Proof/Certificates/Slice0/Obligations.lean ====
section
/-! DEFINITION. The statements for the provers. Each is a rule of spec/ or rests on the sections its entry in
OBLIGATIONS.json cites. -/

open Sys2Proof Sys2Proof.Machine

/-! ## Encoding -/

/-- The word that spells a command decodes to that command, for every command and every operand. -/
def Obligations.DecodeAfterEncode : Prop := ∀ i : Instr, decode (encode i) = .ok i

/-- A word that decodes is the word its command is spelled by: no bit is dropped and no command has two words. -/
def Obligations.EncodeAfterDecode : Prop := ∀ (cw : CmdWord) (i : Instr), decode cw = .ok i → encode i = cw

/-- R77: a word spells the command of a row if and only if `cw & mask = match`; a word that matches none is illegal.
That the pairs are disjoint is in the equivalences, `decode` having one value. -/
def Obligations.WordSpellsRowIffMaskMatches : Prop := ∀ cw : CmdWord,
  (decode cw = .ok .inval ↔ cw &&& 0xFFFFFFFFFFFFFFFF#64 = 0x0100000000000000#64) ∧
  ((∃ page, decode cw = .ok (.mark page)) ↔ cw &&& 0xFFFFFFFFFFFFFFF8#64 = 0x0200000000000000#64) ∧
  (decode cw = .ok .clear ↔ cw &&& 0xFFFFFFFFFFFFFFFF#64 = 0x0300000000000000#64) ∧
  (decode cw = .ok .flush ↔ cw &&& 0xFFFFFFFFFFFFFFFF#64 = 0x0400000000000000#64) ∧
  ((∃ on px py, decode cw = .ok (.setpix on px py)) ↔ cw &&& 0xFFFFFFFFFFFE80C0#64 = 0x0800000000000000#64) ∧
  ((∃ img x y, decode cw = .ok (.draw img x y)) ↔ cw &&& 0xFFFF000000000000#64 = 0x1000000000000000#64) ∧
  ((∃ img x y, decode cw = .ok (.clrimg img x y)) ↔ cw &&& 0xFFFF000000000000#64 = 0x1100000000000000#64) ∧
  ((∃ img x y, decode cw = .ok (.blend img x y)) ↔ cw &&& 0xFFFF000000000000#64 = 0x1200000000000000#64) ∧
  ((∀ i, decode cw ≠ .ok i) → ∃ e, decode cw = .error e)

/-- R76: where each operand stands in the word and what number it is; `x` and `y` are two's complement. -/
def Obligations.OperandsAreFieldsOfTheWord : Prop := ∀ cw : CmdWord,
  (∀ page, decode cw = .ok (.mark page) → (pageOperand page).val = cw.toNat % 8) ∧
  (∀ on px py, decode cw = .ok (.setpix on px py) →
    on = cw.toNat.testBit 16 ∧ px.toNat = cw.toNat / 2 ^ 8 % 128 ∧ py.toNat = cw.toNat % 64) ∧
  (∀ o img x y, decode cw = .ok (paintInstr o img x y) →
    img.toNat = cw.toNat % 65536 ∧
    sext16 x = (if cw.toNat / 2 ^ 32 % 65536 < 32768 then ((cw.toNat / 2 ^ 32 % 65536 : Nat) : Int)
      else ((cw.toNat / 2 ^ 32 % 65536 : Nat) : Int) - 65536) ∧
    sext16 y = (if cw.toNat / 2 ^ 16 % 65536 < 32768 then ((cw.toNat / 2 ^ 16 % 65536 : Nat) : Int)
      else ((cw.toNat / 2 ^ 16 % 65536 : Nat) : Int) - 65536))

/-- R86: a word is illegal for its opcode or for a reserved bit of its format, the all-zero and the all-ones word among
them; the engine that takes one sets `ILL`, changes nothing else, and is ready for the next word. -/
def Obligations.IllegalWordSetsIllOnly : Prop :=
  (∀ cw : CmdWord, decode cw = .error .unassignedOpcode ↔
    cw.toNat / 2 ^ 56 ∉ [0x01, 0x02, 0x03, 0x04, 0x08, 0x10, 0x11, 0x12]) ∧
  (∀ cw : CmdWord, decode cw = .error .reservedBit ↔
    (cw.toNat / 2 ^ 56 ∈ [0x01, 0x03, 0x04] ∧ cw &&& 0x00FFFFFFFFFFFFFF#64 ≠ 0#64) ∨
    (cw.toNat / 2 ^ 56 = 0x02 ∧ cw &&& 0x00FFFFFFFFFFFFF8#64 ≠ 0#64) ∨
    (cw.toNat / 2 ^ 56 = 0x08 ∧ cw &&& 0x00FFFFFFFFFE80C0#64 ≠ 0#64) ∨
    (cw.toNat / 2 ^ 56 ∈ [0x10, 0x11, 0x12] ∧ cw &&& 0x00FF000000000000#64 ≠ 0#64)) ∧
  (∃ e, decode 0#64 = .error e) ∧ (∃ e, decode 0xFFFFFFFFFFFFFFFF#64 = .error e) ∧
  (∀ (s : State) (cw : CmdWord) (rest : List CmdWord) (e : Illegal),
    rstSample s = false → s.phase = .idle → s.host = cw :: rest → decode cw = .error e →
    ∃ t, step s = .next t ∧ t = { s with ill := true, host := rest, rst := s.rst.tail } ∧ cmdReady t = true)

/-- The worked encodings of R92 decode to the lines they stand for, one of every format. -/
def Obligations.WorkedWordsDecode : Prop :=
  decode 0x1000000000030100#64 = .ok (.draw 0x0100#16 0#16 3#16) ∧
  decode 0x1200FFFEFFFD0200#64 = .ok (.blend 0x0200#16 0xFFFE#16 0xFFFD#16) ∧
  decode 0x1100000A000D0150#64 = .ok (.clrimg 0x0150#16 10#16 13#16) ∧
  decode 0x080000000001050A#64 = .ok (.setpix true 5#7 10#6) ∧
  decode 0x0800000000007F3F#64 = .ok (.setpix false 127#7 63#6) ∧
  decode 0x0200000000000003#64 = .ok (.mark 3#3) ∧
  decode 0x0100000000000000#64 = .ok .inval ∧
  decode 0x0300000000000000#64 = .ok .clear ∧
  decode 0x0400000000000000#64 = .ok .flush

/-! ## Steps, the command port, reset -/

/-- When `rst` is 0, the engine idle and the word on the port spells `i`, the step is `exec` of `i` at the state with
that word taken from the host (and this step's `rst` sample used up). -/
def Obligations.StepRunsDecodedCommand : Prop :=
  ∀ (s : State) (cw : CmdWord) (rest : List CmdWord) (i : Instr),
    rstSample s = false → s.phase = .idle → s.host = cw :: rest → decode cw = .ok i →
    step s = exec i { s with host := rest, rst := s.rst.tail }

/-- Every command and every step answers a next state: there is no fault and no refusal (R198, R207). That a step of a hung
flush is a next state too, so that the hang of R184 and R193, which stops the engine for ever, is an endless run of such
steps, and that an illegal word leaves the run unmarked (R195 would allow a mark) is the model's choice, log entry 10. -/
def Obligations.EveryStepAnswersANextState : Prop :=
  (∀ (i : Instr) (s : State), ∃ t, exec i s = .next t) ∧ (∀ s : State, ∃ t, step s = .next t)

/-- `cmd_ready` is 1 exactly in `IDLE`. Two kinds of step that take no word: with no word on the port an idle engine does
nothing; in `FLUSHING`, while the sink does not complete and `rst` is 0, no word is taken and `FB`, `FD`, `LD`, `UNSUP`,
`ILL` and the phase do not change (R29, R70, R227). Of every step `Obligations.HostWordsAreTakenInOrder` says when a word
is taken. -/
def Obligations.ReadinessAndIdleAndWaitingSteps : Prop :=
  (∀ s : State, cmdReady s = true ↔ s.phase = .idle) ∧
  (∀ s : State, rstSample s = false → s.phase = .idle → s.host = [] →
    step s = .next { s with rst := s.rst.tail }) ∧
  (∀ (s : State) (tr : Transfer), rstSample s = false → s.phase = .flushing tr → sinkAnswer s = false →
    ∃ t, step s = .next t ∧ t.phase = .flushing tr ∧ t.host = s.host ∧ t.fb = s.fb ∧ t.dirty = s.dirty ∧
      t.unsup = s.unsup ∧ t.ill = s.ill ∧ t.imem = s.imem ∧ t.sent = s.sent)

/-- Commands take effect in the order the host issues them, each once: a step leaves the host's words or takes the
first of them, and takes one only when idle and not in reset (R54 (1), R227). That the host's words outlast a reset step
is the model's choice, log entries 1 and 3. -/
def Obligations.HostWordsAreTakenInOrder : Prop :=
  ∀ s t : State, step s = .next t →
    t.host = s.host ∨ (rstSample s = false ∧ s.phase = .idle ∧ ∃ cw, s.host = cw :: t.host)

/-- R31: the reset values, `STATUS` among them, for every splash image. -/
def Obligations.ResetValues : Prop :=
  (∀ i < 1024, State.reset.fb.read i = Config.splash i) ∧
  State.reset.dirty.fd = 0#4 ∧ State.reset.dirty.ld = 7#4 ∧ State.reset.unsup = false ∧ State.reset.ill = false ∧
  State.reset.phase = .idle ∧ status State.reset = 0x0170#16

/-- R220, R221, R222: with `rst` at 1 every state element takes its reset value (R31), a transfer in flight is cut and
does not join the sequence of completed transfers, no command is taken, and the engine then accepts commands. That the
transfers observed before, the host's words and the image memory outlast the reset is the model's choice (log entries
1, 3, 5 and 9): the spec lets a reset begin a run with another image memory (R226, U5). -/
def Obligations.ResetInputEntersResetState : Prop :=
  ∀ s : State, rstSample s = true → ∃ t, step s = .next t ∧
    (∀ i < 1024, t.fb.read i = Config.splash i) ∧ t.dirty.fd = 0#4 ∧ t.dirty.ld = 7#4 ∧ t.unsup = false ∧
    t.ill = false ∧ t.phase = .idle ∧ t.sent = s.sent ∧ t.host = s.host ∧ t.imem = s.imem ∧ cmdReady t = true

/-- R30: every field of `STATUS`. -/
def Obligations.StatusFields : Prop := ∀ s : State,
  (status s).extractLsb' 0 4 = s.dirty.fd ∧ (status s).extractLsb' 4 4 = s.dirty.ld ∧
  ((status s).getLsbD 8 = true ↔ s.dirty.fd.toNat ≤ 7) ∧
  ((status s).getLsbD 9 = true ↔ ∃ tr, s.phase = .flushing tr) ∧
  (status s).getLsbD 10 = s.unsup ∧ (status s).getLsbD 11 = s.ill ∧ (status s).extractLsb' 12 4 = 0#4

/-! ## The dirty range -/

/-- R113: `INVAL` makes the range `(0,7)`, so `DIRTY` is 1, and changes nothing else. -/
def Obligations.InvalMarksEveryPage : Prop := ∀ s : State,
  ∃ t, exec .inval s = .next t ∧ t = { s with dirty := t.dirty } ∧ t.dirty.fd = 0#4 ∧ t.dirty.ld = 7#4 ∧ isDirty t = true

/-- R110, R114 (the algorithm is the spec's decision D7, an inference from the source's invariant): `MARK p` makes a
clean range `(p,p)`, extends a dirty one to the least span with `p` in it, and changes nothing else. -/
def Obligations.MarkExtendsRange : Prop := ∀ (page : BitVec 3) (s : State),
  ∃ t, exec (.mark page) s = .next t ∧ t = { s with dirty := t.dirty } ∧ isDirty t = true ∧
    (7 < s.dirty.fd.toNat → t.dirty.fd.toNat = page.toNat ∧ t.dirty.ld.toNat = page.toNat) ∧
    (s.dirty.fd.toNat ≤ 7 →
      t.dirty.fd.toNat = min s.dirty.fd.toNat page.toNat ∧ t.dirty.ld.toNat = max s.dirty.ld.toNat page.toNat) ∧
    (s.dirty.covers page.toNat → t = s)

/-- R117 (a) to (c): marking never shrinks the range, two marks commute, the same mark twice is once. -/
def Obligations.MarkingLaws : Prop := ∀ (p q : BitVec 3) (s a b : State),
  exec (.mark p) s = .next a → exec (.mark q) s = .next b →
    (∀ k < 8, s.dirty.covers k → a.dirty.covers k) ∧ a.dirty.covers p.toNat ∧
    exec (.mark p) a = .next a ∧ exec (.mark q) a = exec (.mark p) b

/-- R117 (f): a step that does not complete a transfer takes no page out of the dirty range (reset makes it full). -/
def Obligations.OnlyCompletionShrinksRange : Prop := ∀ s t : State,
  step s = .next t → (∀ tr, ¬ Completes s tr) → ∀ p < 8, s.dirty.covers p → t.dirty.covers p

/-- R25 (carried in the type of the range): in every state the range is the clean sentinel or `0 <= FD <= LD <= 7`. -/
def Obligations.RangeIsCleanOrOrdered : Prop := ∀ s : State,
  (s.dirty.fd = 8#4 ∧ s.dirty.ld = 8#4) ∨ (s.dirty.fd.toNat ≤ s.dirty.ld.toNat ∧ s.dirty.ld.toNat ≤ 7)

/-! ## CLEAR and FLUSH -/

/-- R112: `CLEAR` zeroes all 1024 bytes and makes the range `(0,7)`, whatever it was, and changes nothing else; a
following `FLUSH` hands over pages 0 to 7, 1024 bytes of `0x00`. -/
def Obligations.ClearZeroesStore : Prop := ∀ s : State,
  ∃ t, exec .clear s = .next t ∧ t = { s with fb := t.fb, dirty := t.dirty } ∧
    (∀ a < 1024, t.fb.read a = 0x00#8) ∧ (∀ a, 1024 ≤ a → t.fb.read a = s.fb.read a) ∧
    t.dirty.fd = 0#4 ∧ t.dirty.ld = 7#4 ∧ isDirty t = true ∧
    ∃ tr, exec .flush t = .next { t with phase := .flushing tr } ∧ tr.first = 0#3 ∧ tr.last = 7#3 ∧
      tr.bytes.length = 1024 ∧ ∀ b ∈ tr.bytes, b = 0x00#8

/-- R115: `FLUSH` with a clean range changes nothing and starts no transfer. -/
def Obligations.FlushWhenCleanDoesNothing : Prop := ∀ s : State,
  7 < s.dirty.fd.toNat → exec .flush s = .next s

/-- R116: `FLUSH` with a dirty range hands the display sink the pages `FD` to `LD` with the bytes of `FB` in ascending
order and enters `FLUSHING` with `BUSY` 1, nothing else changing; when the sink completes, the range becomes clean and
the engine idle, `FB` unchanged; while it does not, the range, `FB` and the phase stay as they are. -/
def Obligations.FlushWhenDirtyStartsAndCompletes : Prop :=
  (∀ s : State, s.dirty.fd.toNat ≤ 7 → ∃ tr, exec .flush s = .next { s with phase := .flushing tr } ∧
    isBusy { s with phase := .flushing tr } = true ∧
    tr.first.toNat = s.dirty.fd.toNat ∧ tr.last.toNat = s.dirty.ld.toNat ∧
    tr.bytes.length = (s.dirty.ld.toNat - s.dirty.fd.toNat + 1) * 128 ∧
    ∀ k < tr.bytes.length, tr.bytes[k]? = some (s.fb.read (s.dirty.fd.toNat * 128 + k))) ∧
  (∀ (s : State) (tr : Transfer), Completes s tr → ∃ t, step s = .next t ∧
    t.dirty.fd = 8#4 ∧ t.dirty.ld = 8#4 ∧ t.phase = .idle ∧ t.fb = s.fb ∧ isDirty t = false ∧ isBusy t = false) ∧
  (∀ (s : State) (tr : Transfer), rstSample s = false → s.phase = .flushing tr → sinkAnswer s = false →
    ∃ t, step s = .next t ∧ t.phase = .flushing tr ∧ t.dirty = s.dirty ∧ t.fb = s.fb)

/-- R183: completion cleans the range, makes the engine idle and ready, and appends the transfer to the observable
sequence; nothing else of the engine changes. -/
def Obligations.CompletionAppendsTransfer : Prop := ∀ (s : State) (tr : Transfer),
  Completes s tr → ∃ t, step s = .next t ∧ t.dirty.fd = 8#4 ∧ t.dirty.ld = 8#4 ∧ t.phase = .idle ∧
    cmdReady t = true ∧ t.sent = s.sent ++ [tr] ∧ t.fb = s.fb ∧ t.unsup = s.unsup ∧ t.ill = s.ill ∧
    t.imem = s.imem ∧ t.host = s.host

/-- R184: as long as the sink does not complete, the engine stays in `FLUSHING`, `BUSY` is 1, no command is taken and
`FD`, `LD` keep their values, for any number of steps; and only reset leaves the state without a completion. -/
def Obligations.HungFlushWaitsForEver : Prop :=
  (∀ (n : Nat) (s : State) (tr : Transfer), s.phase = .flushing tr → (∀ b ∈ s.rst.take n, b = false) →
    s.sink.take n = List.replicate n false →
    ∃ t : State, core.run n s = .next t ∧ t.phase = .flushing tr ∧ isBusy t = true ∧ t.host = s.host ∧
      t.dirty = s.dirty ∧ t.fb = s.fb ∧ t.sent = s.sent) ∧
  (∀ (s t : State) (tr : Transfer), s.phase = .flushing tr → sinkAnswer s = false → step s = .next t →
    t.phase = .flushing tr ∨ rstSample s = true)

/-- Bounded liveness under the sink's own answer (R185, R236): if the sink completes at its `n+1`st answer and `rst`
stays 0, the flush is over after `n+1` steps and the transfer handed over has joined the sequence. -/
def Obligations.FlushEndsWhenSinkCompletes : Prop :=
  ∀ (n : Nat) (s : State) (tr : Transfer) (rest : List Bool), s.phase = .flushing tr →
    (∀ b ∈ s.rst.take (n + 1), b = false) → s.sink = List.replicate n false ++ true :: rest →
    ∃ t : State, core.run (n + 1) s = .next t ∧ t.phase = .idle ∧ t.sent = s.sent ++ [tr] ∧
      t.dirty.fd = 8#4 ∧ t.dirty.ld = 8#4 ∧ t.fb = s.fb ∧ t.host = s.host ∧ t.sink = rest

/-- R54 (4), R117 (e): a `FLUSH` taken in state `s` and completed after `n` waiting steps delivers exactly the pages
`FD` to `LD` of `s` with the bytes `FB` held when it was taken, which it holds at completion too; a `FLUSH` right after
does nothing. -/
def Obligations.FlushDeliversTheStoreAsTaken : Prop :=
  ∀ (n : Nat) (s : State) (rest : List Bool), Takes s .flush → s.dirty.fd.toNat ≤ 7 →
    (∀ b ∈ s.rst.take (n + 2), b = false) → s.sink = List.replicate n false ++ true :: rest →
    ∃ (t : State) (tr : Transfer), core.run (n + 2) s = .next t ∧ t.sent = s.sent ++ [tr] ∧
      tr.first.toNat = s.dirty.fd.toNat ∧ tr.last.toNat = s.dirty.ld.toNat ∧
      tr.bytes = pageBytes s.fb s.dirty.fd.toNat s.dirty.ld.toNat ∧ t.fb = s.fb ∧ exec .flush t = .next t

/-- R181: a transfer is in flight after a step only if it was before or the step took a dirty `FLUSH`; it names pages
`0 <= f <= l <= 7` and carries exactly `(l-f+1)*128` bytes of `FB`, ascending. R183, R222: the sequence of completed
transfers grows by a transfer when that transfer completes; a transfer that reset cuts does not join it. That a reset
step keeps the transfers completed before it is the model's choice, log entry 9. -/
def Obligations.TransfersComeFromDirtyFlushes : Prop :=
  (∀ (s t : State) (tr : Transfer), s.Inv → step s = .next t → t.phase = .flushing tr →
    (s.phase = .flushing tr ∨ (Takes s .flush ∧ isDirty s = true)) ∧
    tr.first.toNat ≤ tr.last.toNat ∧ tr.last.toNat ≤ 7 ∧ tr.bytes.length = (tr.last.toNat - tr.first.toNat + 1) * 128 ∧
    ∀ k < tr.bytes.length, tr.bytes[k]? = some (t.fb.read (tr.first.toNat * 128 + k))) ∧
  (∀ s t : State, step s = .next t → t.sent = s.sent ∨ ∃ tr, Completes s tr ∧ t.sent = s.sent ++ [tr])

/-! ## SETPIX -/

/-- R170: `SETPIX on, px, py` sets or clears bit `py mod 8` of `FB[(py div 8)*128 + px]`, keeps every other bit and
byte, makes the range `(0,7)` whatever it was, and changes nothing else. -/
def Obligations.SetpixWritesOneBit : Prop := ∀ (on : Bool) (px : BitVec 7) (py : BitVec 6) (s : State),
  ∃ t, exec (.setpix on px py) s = .next t ∧ t = { s with fb := t.fb, dirty := t.dirty } ∧
    py.toNat / 8 * 128 + px.toNat < 1024 ∧
    (∀ j < 8, (t.fb.read (py.toNat / 8 * 128 + px.toNat)).getLsbD j =
      if j = py.toNat % 8 then on else (s.fb.read (py.toNat / 8 * 128 + px.toNat)).getLsbD j) ∧
    (∀ a, a ≠ py.toNat / 8 * 128 + px.toNat → t.fb.read a = s.fb.read a) ∧
    t.dirty.fd = 0#4 ∧ t.dirty.ld = 7#4 ∧ isDirty t = true

/-- R41, R170: in pixels, `SETPIX` changes the one pixel `(px, py)` to `on` and no other of the 128 by 64. -/
def Obligations.SetpixChangesOnePixel : Prop := ∀ (on : Bool) (px : BitVec 7) (py : BitVec 6) (s t : State),
  exec (.setpix on px py) s = .next t → ∀ x < 128, ∀ y < 64,
    pixel t.fb x y = if x = px.toNat ∧ y = py.toNat then on else pixel s.fb x y

/-- R171: on `FB`, `SETPIX 1` is an Over and `SETPIX 0` a Clear of the mask byte. -/
def Obligations.SetpixIsOverOrClearOfMask : Prop := ∀ (on : Bool) (px : BitVec 7) (py : BitVec 6) (s t : State),
  exec (.setpix on px py) s = .next t → ∀ a,
    t.fb.read a = if a = pixelIndex px py
      then opByte (if on then .over else .clear) (s.fb.read a) (pixelMask py) else s.fb.read a

/-! ## The compositing operator -/

/-- R100 with the bit tables of R101 to R103: Set takes the source bit, Clear keeps a destination bit under a source 0,
Over keeps a destination bit and adds the source bit; each bit depends on its own lane only (R105). -/
def Obligations.OperatorBits : Prop := ∀ (d s : Byte) (i : Nat),
  (opByte .set d s).getLsbD i = s.getLsbD i ∧
  (opByte .clear d s).getLsbD i = (d.getLsbD i && !s.getLsbD i) ∧
  (opByte .over d s).getLsbD i = (d.getLsbD i || s.getLsbD i)

/-- R104 (a) to (f), for all bytes. -/
def Obligations.OperatorLaws : Prop := ∀ d s t : Byte,
  (∀ o, opByte o (opByte o d s) s = opByte o d s) ∧
  opByte .over d s &&& d = d ∧
  opByte .set (opByte .clear d s) s = opByte .set d s ∧ opByte .set d s = s ∧
  opByte .clear d 0x00#8 = d ∧ opByte .over d 0x00#8 = d ∧ opByte .set d 0x00#8 = 0x00#8 ∧
  opByte .clear d 0xFF#8 = 0x00#8 ∧ opByte .over d 0xFF#8 = 0xFF#8 ∧ opByte .set d 0xFF#8 = 0xFF#8 ∧
  opByte .over (opByte .over d s) t = opByte .over (opByte .over d t) s ∧
  opByte .clear (opByte .clear d s) t = opByte .clear (opByte .clear d t) s

/-! ## Painting: `DRAW` (Set), `CLRIMG` (Clear), `BLEND` (Over) -/

/-- R132: `DRAW`, `CLRIMG`, `BLEND` of an image fully off screen change nothing, whatever its height. -/
def Obligations.PaintOffScreenChangesNothing : Prop :=
  ∀ (o : Operator) (img : ImgAddr) (x y : BitVec 16) (s : State),
    (sext16 y > 63 ∨ sext16 x > 127 ∨ sext16 x + imgWidth s img ≤ 0 ∨ sext16 y + imgHeight s img ≤ 0) →
    exec (paintInstr o img x y) s = .next s

/-- R134: at `(0,0)`, width 128, height 64, `DRAW`, `CLRIMG`, `BLEND` apply the operator to all 1024 bytes, data byte
`i` meeting store byte `i`, and make the range `(0,7)`. -/
def Obligations.PaintFullScreen : Prop :=
  ∀ (o : Operator) (img : ImgAddr) (x y : BitVec 16) (s : State),
    sext16 x = 0 → sext16 y = 0 → imgWidth s img = 128 → imgHeight s img = 64 →
    ∃ t, exec (paintInstr o img x y) s = .next t ∧ t = { s with fb := t.fb, dirty := t.dirty } ∧
      (∀ a < 1024, t.fb.read a = opByte o (s.fb.read a) (imgData s img a)) ∧
      (∀ a, 1024 ≤ a → t.fb.read a = s.fb.read a) ∧ t.dirty.fd = 0#4 ∧ t.dirty.ld = 7#4

/-- R135 with the clip of R138: height 8 at a multiple of 8, not off screen: `DRAW`, `CLRIMG`, `BLEND` compose the
columns `max(x,0)` to `min(x+w,128)-1` of page `y div 8` with no shift, mark that page, and change nothing else. -/
def Obligations.PaintPageAligned : Prop :=
  ∀ (o : Operator) (img : ImgAddr) (x y : BitVec 16) (s : State),
    sext16 y ≤ 63 → sext16 x ≤ 127 → 0 < sext16 x + imgWidth s img → 0 < sext16 y + imgHeight s img →
    imgHeight s img = 8 → sext16 y % 8 = 0 →
    ∃ (t : State) (p : Fin 8), (p.val : Int) = sext16 y / 8 ∧
      exec (paintInstr o img x y) s = .next t ∧ t = { s with fb := t.fb, dirty := s.dirty.mark p } ∧
      (∀ (q c : Nat), c < 128 → t.fb.read (q * 128 + c) =
        if q = p.val ∧ max (sext16 x) 0 ≤ (c : Int) ∧ (c : Int) < min (sext16 x + imgWidth s img) 128
        then opByte o (s.fb.read (q * 128 + c)) (imgData s img ((c : Int) - sext16 x).toNat)
        else s.fb.read (q * 128 + c))

/-- R136, R137 with the clip of R138: height 8 at a `y` that is no multiple of 8, not off screen: with `fr = -1` for
`y < 0`, else `y div 8`, and `rem = (y+8) mod 8`, page `fr` gets the source shifted right by `rem`, page `fr + 1` gets
it shifted left by `8 - rem`, each only if it is on the display, in the clipped columns; the pages written are marked
by `MarkDirty` (whose algorithm is `Obligations.MarkExtendsRange`) and nothing else changes. -/
def Obligations.PaintMisaligned : Prop :=
  ∀ (o : Operator) (img : ImgAddr) (x y : BitVec 16) (s : State) (fr : Int) (rem : Nat),
    sext16 y ≤ 63 → sext16 x ≤ 127 → 0 < sext16 x + imgWidth s img → 0 < sext16 y + imgHeight s img →
    imgHeight s img = 8 → sext16 y % 8 ≠ 0 →
    fr = (if sext16 y < 0 then -1 else sext16 y / 8) → (rem : Int) = (sext16 y + 8) % 8 →
    ∃ t, exec (paintInstr o img x y) s = .next t ∧ t = { s with fb := t.fb, dirty := t.dirty } ∧
      -1 ≤ fr ∧ fr ≤ 7 ∧ 1 ≤ rem ∧ rem ≤ 7 ∧
      (∀ (q c : Nat), c < 128 → t.fb.read (q * 128 + c) =
        if max (sext16 x) 0 ≤ (c : Int) ∧ (c : Int) < min (sext16 x + imgWidth s img) 128 then
          if (q : Int) = fr then
            opByte o (s.fb.read (q * 128 + c)) (imgData s img ((c : Int) - sext16 x).toNat >>> rem)
          else if (q : Int) = fr + 1 ∧ q ≤ 7 then
            opByte o (s.fb.read (q * 128 + c)) (imgData s img ((c : Int) - sext16 x).toNat <<< (8 - rem))
          else s.fb.read (q * 128 + c)
        else s.fb.read (q * 128 + c)) ∧
      (∀ p : Fin 8, fr = -1 → p.val = 0 → t.dirty = s.dirty.mark p) ∧
      (∀ p q : Fin 8, (p.val : Int) = fr → (q.val : Int) = fr + 1 → t.dirty = (s.dirty.mark p).mark q) ∧
      (∀ p : Fin 8, fr = 7 → p.val = 7 → t.dirty = s.dirty.mark p)

/-- R137 bit by bit, R231: after a misaligned `DRAW` bit `j` of an upper-page byte is source bit `j + rem` and 0 above
bit `7 - rem`, bit `j` of a lower-page byte is source bit `j - (8 - rem)` and 0 below bit `8 - rem`, whatever was
there before. -/
def Obligations.MisalignedDrawBits : Prop :=
  ∀ (img : ImgAddr) (x y : BitVec 16) (s t : State) (c q j : Nat),
    sext16 y ≤ 63 → imgHeight s img = 8 → sext16 y % 8 ≠ 0 → 0 < sext16 y + 8 →
    c < 128 → sext16 x ≤ (c : Int) → (c : Int) < sext16 x + imgWidth s img → j < 8 →
    exec (.draw img x y) s = .next t →
    (0 < sext16 y → (q : Int) = sext16 y / 8 →
      (t.fb.read (q * 128 + c)).getLsbD j =
        (decide (j + (sext16 y % 8).toNat < 8) &&
          (imgData s img ((c : Int) - sext16 x).toNat).getLsbD (j + (sext16 y % 8).toNat))) ∧
    (q ≤ 7 → (q : Int) = (sext16 y + 8) / 8 →
      (t.fb.read (q * 128 + c)).getLsbD j =
        (decide (8 ≤ j + (sext16 y % 8).toNat) &&
          (imgData s img ((c : Int) - sext16 x).toNat).getLsbD (j + (sext16 y % 8).toNat - 8)))

/-- R139: on screen, with a height that is neither 8 nor 64, or with height 64 without the full-screen geometry (the
latter is the spec's decision D8, an inference): `DRAW`, `CLRIMG`, `BLEND` set `UNSUP` and change nothing else. -/
def Obligations.PaintUnsupportedSetsUnsup : Prop :=
  ∀ (o : Operator) (img : ImgAddr) (x y : BitVec 16) (s : State),
    sext16 y ≤ 63 → sext16 x ≤ 127 → 0 < sext16 x + imgWidth s img → 0 < sext16 y + imgHeight s img →
    imgHeight s img ≠ 8 →
    ¬(sext16 x = 0 ∧ sext16 y = 0 ∧ imgWidth s img = 128 ∧ imgHeight s img = 64) →
    exec (paintInstr o img x y) s = .next { s with unsup := true }

/-- The frame of `DRAW`, `CLRIMG`, `BLEND`, for every operand and state: the command completes; only `FB`, the range and
`UNSUP` can change; a byte that changes lies in the store, and, unless the geometry is full screen, in one of the pages
the image's eight rows start or end in and in the clipped columns (R130, R135, R147 (h)). -/
def Obligations.PaintCompletesAndIsLocal : Prop :=
  ∀ (o : Operator) (img : ImgAddr) (x y : BitVec 16) (s : State),
    ∃ t, exec (paintInstr o img x y) s = .next t ∧
      t = { s with fb := t.fb, dirty := t.dirty, unsup := t.unsup } ∧
      (t.unsup = false → s.unsup = false) ∧
      (∀ p < 8, s.dirty.covers p → t.dirty.covers p) ∧
      ∀ a, t.fb.read a ≠ s.fb.read a → a < 1024 ∧ t.unsup = s.unsup ∧ t.dirty.covers (a / 128) ∧
        ((sext16 x = 0 ∧ sext16 y = 0 ∧ imgWidth s img = 128 ∧ imgHeight s img = 64) ∨
         (imgHeight s img = 8 ∧ max (sext16 x) 0 ≤ ((a % 128 : Nat) : Int) ∧
           ((a % 128 : Nat) : Int) < min (sext16 x + imgWidth s img) 128 ∧
           (((a / 128 : Nat) : Int) = sext16 y / 8 ∨ ((a / 128 : Nat) : Int) = (sext16 y + 7) / 8)))

/-- R147 (d): `DRAW`, `CLRIMG` or `BLEND` twice with the same operands equals once, from a canonical store. -/
def Obligations.PaintTwiceEqualsOnce : Prop :=
  ∀ (o : Operator) (img : ImgAddr) (x y : BitVec 16) (s t : State), s.fb.wf 1024 →
    exec (paintInstr o img x y) s = .next t → exec (paintInstr o img x y) t = .next t

/-- R147 (f): `CLRIMG` then `DRAW` with the same operands equals `DRAW` alone, from a canonical store. -/
def Obligations.ClrimgThenDrawEqualsDraw : Prop :=
  ∀ (img : ImgAddr) (x y : BitVec 16) (s t : State), s.fb.wf 1024 →
    exec (.clrimg img x y) s = .next t → exec (.draw img x y) t = exec (.draw img x y) s

/-- R147 (e), R142: after any `BLEND`, every bit of `FB` that was 1 is still 1. -/
def Obligations.BlendNeverClearsABit : Prop :=
  ∀ (img : ImgAddr) (x y : BitVec 16) (s t : State), exec (.blend img x y) s = .next t →
    ∀ a j, (s.fb.read a).getLsbD j = true → (t.fb.read a).getLsbD j = true

/-! ## The whole machine -/

/-- Every step keeps the invariant: memories canonical inside their address spaces, a transfer in flight that names the
dirty range and carries the store's bytes, completed transfers of whole pages. -/
def Obligations.StepKeepsInvariant : Prop := ∀ s t : State, s.Inv → step s = .next t → t.Inv

/-- The invariant holds at reset. -/
def Obligations.ResetMeetsInvariant : Prop := State.reset.Inv

/-- R26: the dirty range stays a superset of the pages whose bytes differ from what the display sink last received, or
for which that is unknown, over every step of every kind, reset included. -/
def Obligations.StepKeepsRangeConservative : Prop := ∀ s t : State,
  s.Inv → s.Conservative → step s = .next t → t.Conservative

/-- R26 at reset (the reset range is the spec's decision D6): nothing was sent and every page is marked. -/
def Obligations.ResetRangeIsConservative : Prop := State.reset.Conservative

/-- R26, R183, U4: how `SHADOW` moves. A completed transfer sets its pages to its bytes; a reset that cuts a transfer makes
the pages of that transfer unknown; no other step, and no other page, changes it. That a reset keeps `SHADOW` of every
page it does not cut (the last case of clause 2, and clause 3 for a reset in `IDLE`) is the model's choice, log entry 9:
R220 says that at reset nothing has yet been sent. -/
def Obligations.ShadowFollowsThePort : Prop := ∀ (s t : State) (p : Nat), step s = .next t →
  (∀ tr, Completes s tr → shadowPage t.history p =
    if tr.first.toNat ≤ p ∧ p ≤ tr.last.toNat then some ((tr.bytes.drop ((p - tr.first.toNat) * 128)).take 128)
    else shadowPage s.history p) ∧
  (∀ tr, rstSample s = true → s.phase = .flushing tr → shadowPage t.history p =
    if tr.first.toNat ≤ p ∧ p ≤ tr.last.toNat then none else shadowPage s.history p) ∧
  ((∀ tr, ¬ Completes s tr) → (rstSample s = false ∨ s.phase = .idle) →
    shadowPage t.history p = shadowPage s.history p)

/-- R26: in every run from a state that meets the invariant and R26, for every behaviour of the host, the sink
and the reset input, whenever the range is clean, what the sink last received for each page is the page `FB` holds. That the
display shows it needs the sink's storing duty (R185, U7) and is not claimed. -/
def Obligations.CleanRangeMeansStoreWasLastSent : Prop := ∀ (n : Nat) (s t : State),
  s.Inv → s.Conservative → core.run n s = .next t → isDirty t = false →
    ∀ p < 8, shadowPage t.history p = some (pageBytes t.fb p p)

/-- R17, D23: nothing the host can see tells it anything of the store. Two states that differ only in `FB` (and in bytes
on their way to the sink or sent) step to two such states, with the same `STATUS` and the same readiness. -/
def Obligations.HostCannotLearnTheStore : Prop := ∀ s s' t : State,
  SameButStore s t → step s = .next s' →
    ∃ t', step t = .next t' ∧ SameButStore s' t' ∧ status s' = status t' ∧ cmdReady s' = cmdReady t'

/-- R226 (D22, an inference): no step changes the image memory. That it outlasts a reset step too is the model's choice,
log entries 3 and 5: the spec lets a reset begin a run with another image memory (U5). -/
def Obligations.ImageMemoryNeverChanges : Prop := ∀ s t : State, step s = .next t → t.imem = s.imem

/-- R199: no command clears a sticky bit and nothing but reset does; R27, R28: only a paint command sets `UNSUP` and
only an illegal word sets `ILL`. -/
def Obligations.DiagnosticsAreSticky : Prop := ∀ s t : State, step s = .next t → rstSample s = false →
  (s.unsup = true → t.unsup = true) ∧ (s.ill = true → t.ill = true) ∧
  (t.unsup = true → s.unsup = true ∨ ∃ o img x y, Takes s (paintInstr o img x y)) ∧
  (t.ill = true → s.ill = true ∨ (s.phase = .idle ∧ ∃ cw rest e, s.host = cw :: rest ∧ decode cw = .error e))

/-- R23: the store is written by `DRAW`, `CLRIMG`, `BLEND`, `CLEAR`, `SETPIX` and by reset, by nothing else; and a page
whose bytes a command changed is in the dirty range after it. -/
def Obligations.StoreWriters : Prop := ∀ (s t : State) (a : Nat), step s = .next t →
  t.fb.read a ≠ s.fb.read a → rstSample s = true ∨
    (a < 1024 ∧ t.dirty.covers (a / 128) ∧
      (Takes s .clear ∨ (∃ on px py, Takes s (.setpix on px py)) ∨ ∃ o img x y, Takes s (paintInstr o img x y)))

/-! ## The host side: number renderer, assembler; the display port -/

/-- R163: right-aligned rendering of 0 draws nothing, left-aligned rendering of 0 draws one "0" glyph. -/
def Obligations.RenderersDisagreeOnZero : Prop := ∀ (digits : Fin 10 → ImgAddr) (x page : Int),
  expandRight digits 0 x page = [.mark page] ∧
  expandLeft digits 0 x page = [.draw ((digits 0).toNat : Int) x (8 * page), .mark page]

/-- R161: a value of `n` decimal digits expands to `n` `DRAW` lines, least significant digit first, the `k`th at
`right_x - 6*(k+1)`, all at `y = 8*page`, and one `MARK page`; 0 has no digits here. -/
def Obligations.DrawnumrExpansion : Prop :=
  ∀ (digits : Fin 10 → ImgAddr) (value n : Nat) (rightX page : Int),
    value ≤ 4294967295 → value < 10 ^ n → (n = 0 ∨ 10 ^ (n - 1) ≤ value) →
    expandRight digits value rightX page =
      (List.range n).map (fun k : Nat => Line.draw ((digits ⟨value / 10 ^ k % 10, Nat.mod_lt _ (by decide)⟩).toNat : Int)
        (rightX - 6 * ((k : Int) + 1)) (8 * page)) ++ [.mark page]

/-- R162: a value of `n >= 1` decimal digits (0 counts as one) expands to `n` `DRAW` lines, most significant digit
first, the `k`th at `left_x + 6*k`, all at `y = 8*page`, and one `MARK page`. -/
def Obligations.DrawnumlExpansion : Prop :=
  ∀ (digits : Fin 10 → ImgAddr) (value n : Nat) (leftX page : Int),
    value ≤ 4294967295 → 1 ≤ n → value < 10 ^ n → (n = 1 ∨ 10 ^ (n - 1) ≤ value) →
    expandLeft digits value leftX page =
      (List.range n).map (fun k : Nat =>
        Line.draw ((digits ⟨value / 10 ^ (n - 1 - k) % 10, Nat.mod_lt _ (by decide)⟩).toNat : Int)
          (leftX + 6 * (k : Int)) (8 * page)) ++ [.mark page]

/-- R90: a command line in range assembles to the command whose operands are the line's numbers; a line out of range is
refused. -/
def Obligations.AssemblerKeepsOperands : Prop :=
  (∀ l : Line, l.wellFormed = false → ∀ digits, assemble l digits = none) ∧
  (∀ page : Int, 0 ≤ page → page ≤ 7 → ∃ p : BitVec 3, (p.toNat : Int) = page ∧
    ∀ digits, assemble (.mark page) digits = some [.mark p]) ∧
  (∀ on px py : Int, 0 ≤ on → on ≤ 1 → 0 ≤ px → px ≤ 127 → 0 ≤ py → py ≤ 63 →
    ∃ (b : Bool) (c : BitVec 7) (r : BitVec 6), (b = true ↔ on = 1) ∧ (c.toNat : Int) = px ∧ (r.toNat : Int) = py ∧
      ∀ digits, assemble (.setpix on px py) digits = some [.setpix b c r]) ∧
  (∀ img x y : Int, 0 ≤ img → img ≤ 65535 → -32768 ≤ x → x ≤ 32767 → -32768 ≤ y → y ≤ 32767 →
    ∃ (a : ImgAddr) (u v : BitVec 16), (a.toNat : Int) = img ∧ sext16 u = x ∧ sext16 v = y ∧
      ∀ digits, assemble (.draw img x y) digits = some [.draw a u v] ∧
        assemble (.clrimg img x y) digits = some [.clrimg a u v] ∧
        assemble (.blend img x y) digits = some [.blend a u v]) ∧
  (∀ digits, assemble .inval digits = some [.inval] ∧ assemble .clear digits = some [.clear] ∧
    assemble .flush digits = some [.flush])

/-- R90: the source's own name of a command, in lower case, is an alias: whatever follows it on the line, the line means
what it means with the mnemonic. -/
def Obligations.AliasesMeanTheirMnemonics : Prop :=
  ∀ (m : Mnemonic) (name : String), m.sourceName = some name → ∀ (symbols : Symbols) (rest : List Char),
    parseLine symbols (name.toList ++ ' ' :: rest) = parseLine symbols (m.capitals.toList ++ ' ' :: rest) ∧
    parseLine symbols (name.toList ++ ';' :: rest) = parseLine symbols (m.capitals.toList ++ ';' :: rest)

/-- R180: on the display port a transfer is one beat a byte in order, the page range constant, `disp_eot` 1 on the last
beat and 0 on every other. -/
def Obligations.BeatsCarryTheTransfer : Prop := ∀ t : Transfer,
  (transferBeats t).map Beat.byte = t.bytes ∧
  (∀ b ∈ transferBeats t, b.first = t.first ∧ b.last = t.last) ∧
  ∀ (k : Nat) (b : Beat), (transferBeats t)[k]? = some b → (b.eot = true ↔ k + 1 = t.bytes.length)
end

