-- ==== Sys2Proof/Laws/Decode.lean ====
section
/-! SUPPORT. The bits of a command word, field by field. -/

namespace Sys2Proof

/-- Bit `j` of a placed field is the field's bit `j - lo`. -/
@[simp] theorem getLsbD_placeField {n : Nat} (lo : Nat) (f : BitVec n) (j : Nat) :
    (placeField lo f).getLsbD j = (decide (j < 64) && !decide (j < lo) && f.getLsbD (j - lo)) := by
  simp only [placeField, BitVec.getLsbD_shiftLeft, BitVec.getLsbD_setWidth]
  by_cases h : j < 64
  · simp [h, show j - lo < 64 by omega]
  · simp [h]

/-- Bit `j` of a format P word, from its fields (R75). -/
theorem getLsbD_encodeP (op : BitVec 8) (img : ImgAddr) (x y : BitVec 16) (j : Nat) (hj : j < 64) :
    (encodeP op img x y).getLsbD j =
      (!decide (j < 56) && op.getLsbD (j - 56) || !decide (j < 32) && x.getLsbD (j - 32)
        || !decide (j < 16) && y.getLsbD (j - 16) || img.getLsbD j) := by
  simp only [encodeP, BitVec.getLsbD_or, getLsbD_placeField, hj, decide_true, Bool.true_and, Nat.sub_zero]
  simp

/-- The opcode field of a format P word (R71). -/
theorem opcodeField_encodeP (op : BitVec 8) (img : ImgAddr) (x y : BitVec 16) :
    opcodeField (encodeP op img x y) = op := by
  refine BitVec.eq_of_getLsbD_eq fun j hj => ?_
  have hx : x.getLsbD (56 + j - 32) = false := BitVec.getLsbD_of_ge _ _ (by omega)
  have hy : y.getLsbD (56 + j - 16) = false := BitVec.getLsbD_of_ge _ _ (by omega)
  have hi : img.getLsbD (56 + j) = false := BitVec.getLsbD_of_ge _ _ (by omega)
  simp only [opcodeField, BitVec.getLsbD_extractLsb', getLsbD_encodeP _ _ _ _ _ (show 56 + j < 64 by omega),
    hx, hy, hi]
  simp [hj]

/-- The opcode field of a format X word (R71). -/
theorem opcodeField_setpix (on : Bool) (px : BitVec 7) (py : BitVec 6) :
    opcodeField (encode (.setpix on px py)) = 0x08#8 := by
  refine BitVec.eq_of_getLsbD_eq fun j hj => ?_
  have hx : px.getLsbD (56 + j - 8) = false := BitVec.getLsbD_of_ge _ _ (by omega)
  have hy : py.getLsbD (56 + j) = false := BitVec.getLsbD_of_ge _ _ (by omega)
  have ho : (BitVec.ofBool on).getLsbD (56 + j - 16) = false := BitVec.getLsbD_of_ge _ _ (by omega)
  have h64 : 56 + j < 64 := by omega
  simp only [opcodeField, encode, BitVec.getLsbD_extractLsb', BitVec.getLsbD_or, getLsbD_placeField, hx, ho,
    Nat.sub_zero, hy, h64, Nat.add_sub_cancel_left, Instr.opcode]
  simp [hj]

end Sys2Proof
end

