-- ==== Sys2Proof/Laws/Memory.lean ====
section
/-! SUPPORT. What the memory operations do: reads after writes, and the canonical form kept. -/

namespace Sys2Proof.Machine

@[simp] theorem Memory.read_nil (a : Nat) : Memory.read [] a = 0#8 := rfl

theorem Memory.read_cons (c : Host.Cell) (m : Memory) (a : Nat) :
    Memory.read (c :: m) a = if a = c.1 then c.2 else Memory.read m a := rfl

theorem Memory.read_eq_zero {m : Memory} {a : Nat} (h : ∀ c ∈ m, c.1 ≠ a) : Memory.read m a = 0#8 := by
  induction m with
  | nil => rfl
  | cons c m ih =>
    have hc := h c (by simp)
    rw [read_cons, if_neg (fun e => hc e.symm)]
    exact ih fun d hd => h d (by simp [hd])

theorem Memory.read_erase (m : Memory) (a b : Nat) :
    Memory.read (m.erase a) b = if b = a then 0#8 else Memory.read m b := by
  induction m with
  | nil => simp [erase]
  | cons c m ih =>
    unfold erase at ih ⊢
    by_cases hc : c.1 = a
    · rw [List.filter_cons_of_neg (by simpa using hc), ih, read_cons]
      split <;> simp_all
    · rw [List.filter_cons_of_pos (by simpa using hc), read_cons, ih, read_cons]
      split <;> simp_all

theorem Memory.read_insert {m : Memory} {a : Nat} (h : ∀ c ∈ m, c.1 ≠ a) (v : Byte) (b : Nat) :
    Memory.read (m.insert a v) b = if b = a then v else Memory.read m b := by
  induction m with
  | nil => rfl
  | cons c m ih =>
    have hc := h c (by simp)
    unfold insert
    split
    · rfl
    · rw [read_cons, read_cons, ih fun d hd => h d (by simp [hd])]
      split <;> simp_all

theorem Memory.erase_keys (m : Memory) (a : Nat) : ∀ c ∈ m.erase a, c.1 ≠ a := by
  intro c hc
  simpa [erase] using (List.mem_filter.mp hc).2

/-- A read after a write gives the value written; every other byte reads as before. -/
@[simp] theorem Memory.read_write (m : Memory) (a : Nat) (v : Byte) (b : Nat) :
    Memory.read (m.write a v) b = if b = a then v else Memory.read m b := by
  unfold write
  split
  · rename_i hv
    rw [read_erase, hv]
  · rw [read_insert (erase_keys m a), read_erase]
    split <;> simp_all

/-- A run of updates changes the bytes of the run only, each by its own update. -/
theorem Memory.read_updateRun (m : Memory) (base first : Nat) (g : Nat → Byte → Byte) (n a : Nat) :
    Memory.read (m.updateRun base first g n) a
      = if base + first ≤ a ∧ a < base + first + n then g (a - base) (Memory.read m a) else Memory.read m a := by
  induction n with
  | zero => rw [if_neg (by omega)]; rfl
  | succ n ih =>
    simp only [updateRun, read_write]
    by_cases ha : a = base + (first + n)
    · subst ha
      rw [if_pos rfl, ih, if_neg (by omega), if_pos (by omega), Nat.add_sub_cancel_left]
    · rw [if_neg ha, ih]
      by_cases hr : base + first ≤ a ∧ a < base + first + n
      · rw [if_pos hr, if_pos (by omega)]
      · rw [if_neg hr, if_neg (by omega)]

theorem Memory.read_ofFn (f : Nat → Byte) (lo n a : Nat) :
    Memory.read (Memory.ofFn f lo n) a = if lo ≤ a ∧ a < lo + n then f a else 0#8 := by
  induction n generalizing lo with
  | zero => rw [if_neg (by omega)]; rfl
  | succ n ih =>
    unfold ofFn
    by_cases ha : a = lo
    · subst ha
      split
      · rename_i h0
        rw [ih, if_neg (by omega), if_pos (by omega), h0]
      · rw [read_cons, if_pos rfl, if_pos (by omega)]
    · have key : (lo + 1 ≤ a ∧ a < lo + 1 + n) ↔ (lo ≤ a ∧ a < lo + (n + 1)) := by omega
      split
      · rw [ih]; simp only [key]
      · rw [read_cons, if_neg ha, ih]; simp only [key]

theorem Memory.wf_nil (size : Nat) : Memory.wf size [] := by simp [wf]

theorem Memory.wf_erase {size : Nat} {m : Memory} (h : m.wf size) (a : Nat) : (m.erase a).wf size :=
  ⟨h.1.sublist List.filter_sublist, fun c hc => h.2 c (List.mem_filter.mp hc).1⟩

theorem Memory.mem_insert {m : Memory} {a : Nat} {v : Byte} {c : Host.Cell} :
    c ∈ m.insert a v ↔ c = (a, v) ∨ c ∈ m := by
  induction m with
  | nil => simp [insert]
  | cons d m ih =>
    unfold insert
    split
    · simp
    · simp only [List.mem_cons, ih]
      tauto

theorem Memory.wf_insert {size : Nat} {m : Memory} {a : Nat} {v : Byte} (h : m.wf size)
    (hk : ∀ c ∈ m, c.1 ≠ a) (ha : a < size) (hv : v ≠ 0#8) : (m.insert a v).wf size := by
  refine ⟨?_, fun c hc => ?_⟩
  · replace h := h.1
    induction m with
    | nil => simp [insert]
    | cons d m ih =>
      have hd := hk d (by simp)
      have hp := List.pairwise_cons.mp h
      unfold insert
      split
      · rename_i hlt
        refine List.pairwise_cons.mpr ⟨fun c hc => ?_, h⟩
        rcases List.mem_cons.mp hc with rfl | hc
        · exact hlt
        · exact Nat.lt_trans hlt (hp.1 c hc)
      · rename_i hnlt
        refine List.pairwise_cons.mpr ⟨fun c hc => ?_, ih (fun c hc => hk c (by simp [hc])) hp.2⟩
        rcases mem_insert.mp hc with rfl | hc
        · exact Nat.lt_of_le_of_ne (Nat.not_lt.mp hnlt) hd
        · exact hp.1 c hc
  · rcases mem_insert.mp hc with rfl | hc
    · exact ⟨ha, hv⟩
    · exact h.2 c hc

/-- A write keeps the canonical form. -/
theorem Memory.wf_write {size : Nat} {m : Memory} (h : m.wf size) {a : Nat} (ha : a < size) (v : Byte) :
    (m.write a v).wf size := by
  unfold write
  split
  · exact wf_erase h a
  · rename_i hv
    exact wf_insert (wf_erase h a) (erase_keys m a) ha hv

/-- A run of updates inside the address space keeps the canonical form. -/
theorem Memory.wf_updateRun {size : Nat} {m : Memory} (h : m.wf size) {base first n : Nat}
    (hn : base + first + n ≤ size) (g : Nat → Byte → Byte) : (m.updateRun base first g n).wf size := by
  induction n with
  | zero => exact h
  | succ n ih => exact wf_write (ih (by omega)) (by omega) _

theorem Memory.wf_ofFn_lo (f : Nat → Byte) (lo n : Nat) :
    (Memory.ofFn f lo n).wf (lo + n) ∧ ∀ c ∈ Memory.ofFn f lo n, lo ≤ c.1 := by
  induction n generalizing lo with
  | zero => simp [ofFn, wf]
  | succ n ih =>
    obtain ⟨⟨hp, hs⟩, hlo⟩ := ih (lo + 1)
    unfold ofFn
    split
    · exact ⟨⟨hp, fun c hc => ⟨by have := (hs c hc).1; omega, (hs c hc).2⟩⟩,
        fun c hc => by have := hlo c hc; omega⟩
    · rename_i h0
      refine ⟨⟨List.pairwise_cons.mpr ⟨fun c hc => by have := hlo c hc; simp only; omega, hp⟩, fun c hc => ?_⟩,
        fun c hc => ?_⟩
      · rcases List.mem_cons.mp hc with rfl | hc
        · exact ⟨by simp only; omega, h0⟩
        · exact ⟨by have := (hs c hc).1; omega, (hs c hc).2⟩
      · rcases List.mem_cons.mp hc with rfl | hc
        · exact Nat.le_refl _
        · have := hlo c hc; omega

/-- A memory written out from a function is canonical. -/
theorem Memory.wf_ofFn (f : Nat → Byte) (n : Nat) : (Memory.ofFn f 0 n).wf n := by
  have h := (wf_ofFn_lo f 0 n).1
  rwa [Nat.zero_add] at h

/-- In canonical form, equal bytes are equal data. -/
theorem Memory.ext_of_wf {size : Nat} {m k : Memory} (hm : m.wf size) (hk : k.wf size)
    (h : ∀ a, Memory.read m a = Memory.read k a) : m = k := by
  induction m generalizing k with
  | nil =>
    cases k with
    | nil => rfl
    | cons d k =>
      have := h d.1
      rw [read_cons, if_pos rfl] at this
      exact absurd this.symm (hk.2 d (by simp)).2
  | cons c m ih =>
    have hmp := List.pairwise_cons.mp hm.1
    have hc0 := (hm.2 c (by simp)).2
    cases k with
    | nil =>
      have := h c.1
      rw [read_cons, if_pos rfl] at this
      exact absurd this hc0
    | cons d k =>
      have hkp := List.pairwise_cons.mp hk.1
      have hd0 := (hk.2 d (by simp)).2
      have below {e : Host.Cell} {l : Memory} (hl : ∀ c ∈ l, e.1 < c.1) {a : Nat} (ha : a ≤ e.1) :
          Memory.read l a = 0#8 := read_eq_zero fun c hc => by have := hl c hc; omega
      have hkey : c.1 = d.1 := by
        rcases Nat.lt_trichotomy c.1 d.1 with hlt | heq | hgt
        · have := h c.1
          rw [read_cons, if_pos rfl, read_cons, if_neg (by omega), below hkp.1 (by omega)] at this
          exact absurd this hc0
        · exact heq
        · have := h d.1
          rw [read_cons, if_neg (by omega), below hmp.1 (by omega), read_cons, if_pos rfl] at this
          exact absurd this.symm hd0
      have hval : c.2 = d.2 := by
        have := h c.1
        rwa [read_cons, if_pos rfl, read_cons, if_pos hkey] at this
      have htail : m = k := by
        refine ih ⟨hmp.2, fun e he => hm.2 e (by simp [he])⟩ ⟨hkp.2, fun e he => hk.2 e (by simp [he])⟩ fun a => ?_
        by_cases ha : a = c.1
        · rw [ha, below hmp.1 (Nat.le_refl _), hkey, below hkp.1 (Nat.le_refl _)]
        · have := h a
          rwa [read_cons, if_neg ha, read_cons, if_neg (by omega)] at this
      rw [htail, Prod.ext hkey hval]

end Sys2Proof.Machine
end

