-- ==== Sys2Proof/Laws/State.lean ====
section
/-! SUPPORT. One lemma per field per update of the state. -/

namespace Sys2Proof.Machine

/-! `markDirty` -/
@[simp] theorem markDirty_fb (p : Fin 8) (s : State) : (markDirty p s).fb = s.fb := rfl
@[simp] theorem markDirty_dirty (p : Fin 8) (s : State) : (markDirty p s).dirty = s.dirty.mark p := rfl
@[simp] theorem markDirty_unsup (p : Fin 8) (s : State) : (markDirty p s).unsup = s.unsup := rfl
@[simp] theorem markDirty_ill (p : Fin 8) (s : State) : (markDirty p s).ill = s.ill := rfl
@[simp] theorem markDirty_phase (p : Fin 8) (s : State) : (markDirty p s).phase = s.phase := rfl
@[simp] theorem markDirty_imem (p : Fin 8) (s : State) : (markDirty p s).imem = s.imem := rfl
@[simp] theorem markDirty_host (p : Fin 8) (s : State) : (markDirty p s).host = s.host := rfl
@[simp] theorem markDirty_rst (p : Fin 8) (s : State) : (markDirty p s).rst = s.rst := rfl
@[simp] theorem markDirty_sink (p : Fin 8) (s : State) : (markDirty p s).sink = s.sink := rfl
@[simp] theorem markDirty_waits (p : Fin 8) (s : State) : (markDirty p s).waits = s.waits := rfl
@[simp] theorem markDirty_history (p : Fin 8) (s : State) : (markDirty p s).history = s.history := rfl
@[simp] theorem markDirty_sent (p : Fin 8) (s : State) : (markDirty p s).sent = s.sent := rfl

/-! `invalidate` -/
@[simp] theorem invalidate_fb (s : State) : (invalidate s).fb = s.fb := rfl
@[simp] theorem invalidate_dirty (s : State) : (invalidate s).dirty = .full := rfl
@[simp] theorem invalidate_unsup (s : State) : (invalidate s).unsup = s.unsup := rfl
@[simp] theorem invalidate_ill (s : State) : (invalidate s).ill = s.ill := rfl
@[simp] theorem invalidate_phase (s : State) : (invalidate s).phase = s.phase := rfl
@[simp] theorem invalidate_imem (s : State) : (invalidate s).imem = s.imem := rfl
@[simp] theorem invalidate_host (s : State) : (invalidate s).host = s.host := rfl
@[simp] theorem invalidate_rst (s : State) : (invalidate s).rst = s.rst := rfl
@[simp] theorem invalidate_sink (s : State) : (invalidate s).sink = s.sink := rfl
@[simp] theorem invalidate_waits (s : State) : (invalidate s).waits = s.waits := rfl
@[simp] theorem invalidate_history (s : State) : (invalidate s).history = s.history := rfl
@[simp] theorem invalidate_sent (s : State) : (invalidate s).sent = s.sent := rfl

/-! `updateStore` -/
@[simp] theorem updateStore_fb (base first count : Nat) (g : Nat → Byte → Byte) (s : State) : (updateStore base first count g s).fb = s.fb.updateRun base first g count := rfl
@[simp] theorem updateStore_dirty (base first count : Nat) (g : Nat → Byte → Byte) (s : State) : (updateStore base first count g s).dirty = s.dirty := rfl
@[simp] theorem updateStore_unsup (base first count : Nat) (g : Nat → Byte → Byte) (s : State) : (updateStore base first count g s).unsup = s.unsup := rfl
@[simp] theorem updateStore_ill (base first count : Nat) (g : Nat → Byte → Byte) (s : State) : (updateStore base first count g s).ill = s.ill := rfl
@[simp] theorem updateStore_phase (base first count : Nat) (g : Nat → Byte → Byte) (s : State) : (updateStore base first count g s).phase = s.phase := rfl
@[simp] theorem updateStore_imem (base first count : Nat) (g : Nat → Byte → Byte) (s : State) : (updateStore base first count g s).imem = s.imem := rfl
@[simp] theorem updateStore_host (base first count : Nat) (g : Nat → Byte → Byte) (s : State) : (updateStore base first count g s).host = s.host := rfl
@[simp] theorem updateStore_rst (base first count : Nat) (g : Nat → Byte → Byte) (s : State) : (updateStore base first count g s).rst = s.rst := rfl
@[simp] theorem updateStore_sink (base first count : Nat) (g : Nat → Byte → Byte) (s : State) : (updateStore base first count g s).sink = s.sink := rfl
@[simp] theorem updateStore_waits (base first count : Nat) (g : Nat → Byte → Byte) (s : State) : (updateStore base first count g s).waits = s.waits := rfl
@[simp] theorem updateStore_history (base first count : Nat) (g : Nat → Byte → Byte) (s : State) : (updateStore base first count g s).history = s.history := rfl
@[simp] theorem updateStore_sent (base first count : Nat) (g : Nat → Byte → Byte) (s : State) : (updateStore base first count g s).sent = s.sent := rfl

/-! `writeStore` -/
@[simp] theorem writeStore_fb (i : Nat) (v : Byte) (s : State) : (writeStore i v s).fb = s.fb.write i v := rfl
@[simp] theorem writeStore_dirty (i : Nat) (v : Byte) (s : State) : (writeStore i v s).dirty = s.dirty := rfl
@[simp] theorem writeStore_unsup (i : Nat) (v : Byte) (s : State) : (writeStore i v s).unsup = s.unsup := rfl
@[simp] theorem writeStore_ill (i : Nat) (v : Byte) (s : State) : (writeStore i v s).ill = s.ill := rfl
@[simp] theorem writeStore_phase (i : Nat) (v : Byte) (s : State) : (writeStore i v s).phase = s.phase := rfl
@[simp] theorem writeStore_imem (i : Nat) (v : Byte) (s : State) : (writeStore i v s).imem = s.imem := rfl
@[simp] theorem writeStore_host (i : Nat) (v : Byte) (s : State) : (writeStore i v s).host = s.host := rfl
@[simp] theorem writeStore_rst (i : Nat) (v : Byte) (s : State) : (writeStore i v s).rst = s.rst := rfl
@[simp] theorem writeStore_sink (i : Nat) (v : Byte) (s : State) : (writeStore i v s).sink = s.sink := rfl
@[simp] theorem writeStore_waits (i : Nat) (v : Byte) (s : State) : (writeStore i v s).waits = s.waits := rfl
@[simp] theorem writeStore_history (i : Nat) (v : Byte) (s : State) : (writeStore i v s).history = s.history := rfl
@[simp] theorem writeStore_sent (i : Nat) (v : Byte) (s : State) : (writeStore i v s).sent = s.sent := rfl

/-! `raise_unsupported` -/
@[simp] theorem raise_unsupported_fb (s : State) : (raise .unsupported s).fb = s.fb := rfl
@[simp] theorem raise_unsupported_dirty (s : State) : (raise .unsupported s).dirty = s.dirty := rfl
@[simp] theorem raise_unsupported_unsup (s : State) : (raise .unsupported s).unsup = true := rfl
@[simp] theorem raise_unsupported_ill (s : State) : (raise .unsupported s).ill = s.ill := rfl
@[simp] theorem raise_unsupported_phase (s : State) : (raise .unsupported s).phase = s.phase := rfl
@[simp] theorem raise_unsupported_imem (s : State) : (raise .unsupported s).imem = s.imem := rfl
@[simp] theorem raise_unsupported_host (s : State) : (raise .unsupported s).host = s.host := rfl
@[simp] theorem raise_unsupported_rst (s : State) : (raise .unsupported s).rst = s.rst := rfl
@[simp] theorem raise_unsupported_sink (s : State) : (raise .unsupported s).sink = s.sink := rfl
@[simp] theorem raise_unsupported_waits (s : State) : (raise .unsupported s).waits = s.waits := rfl
@[simp] theorem raise_unsupported_history (s : State) : (raise .unsupported s).history = s.history := rfl
@[simp] theorem raise_unsupported_sent (s : State) : (raise .unsupported s).sent = s.sent := rfl

/-! `raise_illegal` -/
@[simp] theorem raise_illegal_fb (s : State) : (raise .illegal s).fb = s.fb := rfl
@[simp] theorem raise_illegal_dirty (s : State) : (raise .illegal s).dirty = s.dirty := rfl
@[simp] theorem raise_illegal_unsup (s : State) : (raise .illegal s).unsup = s.unsup := rfl
@[simp] theorem raise_illegal_ill (s : State) : (raise .illegal s).ill = true := rfl
@[simp] theorem raise_illegal_phase (s : State) : (raise .illegal s).phase = s.phase := rfl
@[simp] theorem raise_illegal_imem (s : State) : (raise .illegal s).imem = s.imem := rfl
@[simp] theorem raise_illegal_host (s : State) : (raise .illegal s).host = s.host := rfl
@[simp] theorem raise_illegal_rst (s : State) : (raise .illegal s).rst = s.rst := rfl
@[simp] theorem raise_illegal_sink (s : State) : (raise .illegal s).sink = s.sink := rfl
@[simp] theorem raise_illegal_waits (s : State) : (raise .illegal s).waits = s.waits := rfl
@[simp] theorem raise_illegal_history (s : State) : (raise .illegal s).history = s.history := rfl
@[simp] theorem raise_illegal_sent (s : State) : (raise .illegal s).sent = s.sent := rfl

/-! `startFlush` -/
@[simp] theorem startFlush_fb (s : State) : (startFlush s).fb = s.fb := rfl
@[simp] theorem startFlush_dirty (s : State) : (startFlush s).dirty = s.dirty := rfl
@[simp] theorem startFlush_unsup (s : State) : (startFlush s).unsup = s.unsup := rfl
@[simp] theorem startFlush_ill (s : State) : (startFlush s).ill = s.ill := rfl
@[simp] theorem startFlush_phase (s : State) : (startFlush s).phase = .flushing (flushTransfer s) := rfl
@[simp] theorem startFlush_imem (s : State) : (startFlush s).imem = s.imem := rfl
@[simp] theorem startFlush_host (s : State) : (startFlush s).host = s.host := rfl
@[simp] theorem startFlush_rst (s : State) : (startFlush s).rst = s.rst := rfl
@[simp] theorem startFlush_sink (s : State) : (startFlush s).sink = s.sink := rfl
@[simp] theorem startFlush_waits (s : State) : (startFlush s).waits = s.waits := rfl
@[simp] theorem startFlush_history (s : State) : (startFlush s).history = s.history := rfl
@[simp] theorem startFlush_sent (s : State) : (startFlush s).sent = s.sent := rfl

/-! `completeFlush` -/
@[simp] theorem completeFlush_fb (t : Transfer) (s : State) : (completeFlush t s).fb = s.fb := rfl
@[simp] theorem completeFlush_dirty (t : Transfer) (s : State) : (completeFlush t s).dirty = .clean := rfl
@[simp] theorem completeFlush_unsup (t : Transfer) (s : State) : (completeFlush t s).unsup = s.unsup := rfl
@[simp] theorem completeFlush_ill (t : Transfer) (s : State) : (completeFlush t s).ill = s.ill := rfl
@[simp] theorem completeFlush_phase (t : Transfer) (s : State) : (completeFlush t s).phase = .idle := rfl
@[simp] theorem completeFlush_imem (t : Transfer) (s : State) : (completeFlush t s).imem = s.imem := rfl
@[simp] theorem completeFlush_host (t : Transfer) (s : State) : (completeFlush t s).host = s.host := rfl
@[simp] theorem completeFlush_rst (t : Transfer) (s : State) : (completeFlush t s).rst = s.rst := rfl
@[simp] theorem completeFlush_sink (t : Transfer) (s : State) : (completeFlush t s).sink = s.sink := rfl
@[simp] theorem completeFlush_waits (t : Transfer) (s : State) : (completeFlush t s).waits = s.waits := rfl
@[simp] theorem completeFlush_history (t : Transfer) (s : State) : (completeFlush t s).history = s.history ++ [.completed t] := rfl
@[simp] theorem completeFlush_sent (t : Transfer) (s : State) : (completeFlush t s).sent = s.sent ++ [t] := by
  simp [State.sent, PortEvent.completed?]

/-! `takeRstSample` -/
@[simp] theorem takeRstSample_fb (s : State) : (takeRstSample s).fb = s.fb := rfl
@[simp] theorem takeRstSample_dirty (s : State) : (takeRstSample s).dirty = s.dirty := rfl
@[simp] theorem takeRstSample_unsup (s : State) : (takeRstSample s).unsup = s.unsup := rfl
@[simp] theorem takeRstSample_ill (s : State) : (takeRstSample s).ill = s.ill := rfl
@[simp] theorem takeRstSample_phase (s : State) : (takeRstSample s).phase = s.phase := rfl
@[simp] theorem takeRstSample_imem (s : State) : (takeRstSample s).imem = s.imem := rfl
@[simp] theorem takeRstSample_host (s : State) : (takeRstSample s).host = s.host := rfl
@[simp] theorem takeRstSample_rst (s : State) : (takeRstSample s).rst = s.rst.tail := rfl
@[simp] theorem takeRstSample_sink (s : State) : (takeRstSample s).sink = s.sink := rfl
@[simp] theorem takeRstSample_waits (s : State) : (takeRstSample s).waits = s.waits := rfl
@[simp] theorem takeRstSample_history (s : State) : (takeRstSample s).history = s.history := rfl
@[simp] theorem takeRstSample_sent (s : State) : (takeRstSample s).sent = s.sent := rfl

/-! `takeHostWord` -/
@[simp] theorem takeHostWord_fb (s : State) : (takeHostWord s).fb = s.fb := rfl
@[simp] theorem takeHostWord_dirty (s : State) : (takeHostWord s).dirty = s.dirty := rfl
@[simp] theorem takeHostWord_unsup (s : State) : (takeHostWord s).unsup = s.unsup := rfl
@[simp] theorem takeHostWord_ill (s : State) : (takeHostWord s).ill = s.ill := rfl
@[simp] theorem takeHostWord_phase (s : State) : (takeHostWord s).phase = s.phase := rfl
@[simp] theorem takeHostWord_imem (s : State) : (takeHostWord s).imem = s.imem := rfl
@[simp] theorem takeHostWord_host (s : State) : (takeHostWord s).host = s.host.tail := rfl
@[simp] theorem takeHostWord_rst (s : State) : (takeHostWord s).rst = s.rst := rfl
@[simp] theorem takeHostWord_sink (s : State) : (takeHostWord s).sink = s.sink := rfl
@[simp] theorem takeHostWord_waits (s : State) : (takeHostWord s).waits = s.waits := rfl
@[simp] theorem takeHostWord_history (s : State) : (takeHostWord s).history = s.history := rfl
@[simp] theorem takeHostWord_sent (s : State) : (takeHostWord s).sent = s.sent := rfl

/-! `resetEngine` -/
@[simp] theorem resetEngine_fb (s : State) : (resetEngine s).fb = splashStore := rfl
@[simp] theorem resetEngine_dirty (s : State) : (resetEngine s).dirty = .full := rfl
@[simp] theorem resetEngine_unsup (s : State) : (resetEngine s).unsup = false := rfl
@[simp] theorem resetEngine_ill (s : State) : (resetEngine s).ill = false := rfl
@[simp] theorem resetEngine_phase (s : State) : (resetEngine s).phase = .idle := rfl
@[simp] theorem resetEngine_imem (s : State) : (resetEngine s).imem = s.imem := rfl
@[simp] theorem resetEngine_host (s : State) : (resetEngine s).host = s.host := rfl
@[simp] theorem resetEngine_rst (s : State) : (resetEngine s).rst = s.rst := rfl
@[simp] theorem resetEngine_sink (s : State) : (resetEngine s).sink = s.sink := rfl
@[simp] theorem resetEngine_waits (s : State) : (resetEngine s).waits = s.waits := rfl
@[simp] theorem resetEngine_history (s : State) : (resetEngine s).history = cutFlush s := rfl
@[simp] theorem resetEngine_sent (s : State) : (resetEngine s).sent = s.sent := by
  cases h : s.phase <;> simp [State.sent, cutFlush, h, PortEvent.completed?]

/-! `takeSinkAnswer` -/
@[simp] theorem takeSinkAnswer_fb (s : State) : (takeSinkAnswer s).fb = s.fb := by
  unfold takeSinkAnswer; split <;> rfl
@[simp] theorem takeSinkAnswer_dirty (s : State) : (takeSinkAnswer s).dirty = s.dirty := by
  unfold takeSinkAnswer; split <;> rfl
@[simp] theorem takeSinkAnswer_unsup (s : State) : (takeSinkAnswer s).unsup = s.unsup := by
  unfold takeSinkAnswer; split <;> rfl
@[simp] theorem takeSinkAnswer_ill (s : State) : (takeSinkAnswer s).ill = s.ill := by
  unfold takeSinkAnswer; split <;> rfl
@[simp] theorem takeSinkAnswer_phase (s : State) : (takeSinkAnswer s).phase = s.phase := by
  unfold takeSinkAnswer; split <;> rfl
@[simp] theorem takeSinkAnswer_imem (s : State) : (takeSinkAnswer s).imem = s.imem := by
  unfold takeSinkAnswer; split <;> rfl
@[simp] theorem takeSinkAnswer_host (s : State) : (takeSinkAnswer s).host = s.host := by
  unfold takeSinkAnswer; split <;> rfl
@[simp] theorem takeSinkAnswer_rst (s : State) : (takeSinkAnswer s).rst = s.rst := by
  unfold takeSinkAnswer; split <;> rfl
@[simp] theorem takeSinkAnswer_sink (s : State) : (takeSinkAnswer s).sink = s.sink.tail := by
  unfold takeSinkAnswer; split <;> simp_all
@[simp] theorem takeSinkAnswer_waits (s : State) :
    (takeSinkAnswer s).waits = if s.sink = [] then s.waits + 1 else s.waits := by
  unfold takeSinkAnswer; split <;> simp_all
@[simp] theorem takeSinkAnswer_history (s : State) : (takeSinkAnswer s).history = s.history := by
  unfold takeSinkAnswer; split <;> rfl
@[simp] theorem takeSinkAnswer_sent (s : State) : (takeSinkAnswer s).sent = s.sent := by
  unfold takeSinkAnswer; split <;> rfl

end Sys2Proof.Machine
end

