-- ==== Sys2Proof/Laws/Ops.lean ====
section
/-! SUPPORT. What the shared operations can do, said once. -/

namespace Sys2Proof.Machine

/-! The sizes of the two memories -/

theorem fbBytes_eq : Config.fbBytes = 1024 := by unfold Config.fbBytes; rfl

theorem imgBytes_eq : Config.imgBytes = 65536 := by unfold Config.imgBytes; rfl

/-- The loop over the whole store (R112, R134) updates the bytes 0 to 1023 and no other. -/
theorem Memory.read_wholeStore (m : Memory) (g : Nat → Byte → Byte) (a : Nat) :
    Memory.read (m.updateRun 0 0 g Config.fbBytes) a = if a < 1024 then g a (Memory.read m a) else Memory.read m a := by
  simp only [read_updateRun, fbBytes_eq, Nat.zero_add, Nat.sub_zero, Nat.zero_le, true_and]

theorem Memory.wf_wholeStore {m : Memory} (h : m.wf 1024) (g : Nat → Byte → Byte) :
    (m.updateRun 0 0 g Config.fbBytes).wf 1024 := wf_updateRun h (by rw [fbBytes_eq]) g

/-- The splash image, byte by byte (R31). -/
theorem splashStore_read {i : Nat} (h : i < 1024) : splashStore.read i = Config.splash i := by
  rw [splashStore, Memory.read_ofFn, fbBytes_eq, if_pos (by omega)]

theorem splashStore_wf : splashStore.wf 1024 := by
  rw [splashStore, fbBytes_eq]
  exact Memory.wf_ofFn _ _

theorem reset_imem_wf : State.reset.imem.wf 65536 := by
  rw [State.reset, imgBytes_eq]
  exact Memory.wf_ofFn _ _

theorem reset_imem_read {a : Nat} (h : a < 65536) : State.reset.imem.read a = Config.imem a := by
  rw [State.reset, Memory.read_ofFn, imgBytes_eq, if_pos (by omega)]

/-! The dirty range -/

theorem DirtyRange.ext_toNat {d e : DirtyRange} (hf : d.fd.toNat = e.fd.toNat) (hl : d.ld.toNat = e.ld.toNat) :
    d = e := by
  cases d; cases e
  simp only at hf hl
  congr <;> exact BitVec.eq_of_toNat_eq ‹_›

@[simp] theorem DirtyRange.full_fd : DirtyRange.full.fd = 0#4 := rfl
@[simp] theorem DirtyRange.full_ld : DirtyRange.full.ld = 7#4 := rfl
@[simp] theorem DirtyRange.clean_fd : DirtyRange.clean.fd = 8#4 := rfl
@[simp] theorem DirtyRange.clean_ld : DirtyRange.clean.ld = 8#4 := rfl

theorem DirtyRange.mark_fd (d : DirtyRange) (p : Fin 8) :
    (d.mark p).fd.toNat = if 7 < d.fd.toNat then p.val else min d.fd.toNat p := by
  have := p.isLt
  unfold mark
  split
  · simp only [BitVec.toNat_ofNat]; omega
  · simp only [BitVec.toNat_ofNat]; omega

theorem DirtyRange.mark_ld (d : DirtyRange) (p : Fin 8) :
    (d.mark p).ld.toNat = if 7 < d.fd.toNat then p.val else max d.ld.toNat p := by
  have := p.isLt
  have := d.legal
  unfold mark
  split
  · simp only [BitVec.toNat_ofNat]; omega
  · simp only [BitVec.toNat_ofNat]; omega

/-- Marking adds the page and takes nothing away. -/
theorem DirtyRange.covers_mark {d : DirtyRange} {p : Fin 8} {q : Nat} (h : d.covers q ∧ q < 8 ∨ q = p) :
    (d.mark p).covers q := by
  have := d.legal; have := p.isLt
  unfold covers at *
  rw [mark_fd, mark_ld]
  split <;> omega

theorem DirtyRange.covers_full {q : Nat} (h : q < 8) : DirtyRange.full.covers q := by
  unfold covers; simp; omega

theorem DirtyRange.isClean_iff (d : DirtyRange) : d.isClean = true ↔ d = .clean := by
  have := d.legal
  simp only [isClean, decide_eq_true_eq]
  constructor
  · intro h
    exact ext_toNat (by simp; omega) (by simp; omega)
  · rintro rfl
    simp

theorem DirtyRange.not_clean_le {d : DirtyRange} (h : d.isClean = false) :
    d.fd.toNat ≤ d.ld.toNat ∧ d.ld.toNat ≤ 7 := by
  have := d.legal
  simp only [isClean, decide_eq_false_iff_not] at h
  omega

/-! The bytes of pages -/

@[simp] theorem pageBytes_length (fb : Memory) (f l : Nat) : (pageBytes fb f l).length = (l + 1 - f) * 128 := by
  simp [pageBytes]

theorem pageBytes_getElem {fb : Memory} {f l k : Nat} (h : k < (pageBytes fb f l).length) :
    (pageBytes fb f l)[k] = fb.read (f * 128 + k) := by simp [pageBytes]

theorem pageBytes_congr {fb fb' : Memory} {f l : Nat}
    (h : ∀ a, f * 128 ≤ a → a < (l + 1) * 128 → fb'.read a = fb.read a) : pageBytes fb' f l = pageBytes fb f l := by
  unfold pageBytes
  refine List.map_congr_left fun k hk => h _ (by omega) ?_
  have := List.mem_range.mp hk
  have : (l + 1 - f) * 128 = (l + 1) * 128 - f * 128 := Nat.sub_mul ..
  omega

/-- The bytes a transfer carries for one of its pages are that page's bytes. -/
theorem pageBytes_slice (fb : Memory) {f l p : Nat} (hf : f ≤ p) (hl : p ≤ l) :
    ((pageBytes fb f l).drop ((p - f) * 128)).take 128 = pageBytes fb p p := by
  have e1 : (p - f) * 128 = p * 128 - f * 128 := Nat.sub_mul ..
  have e2 : (l + 1 - f) * 128 = (l + 1) * 128 - f * 128 := Nat.sub_mul ..
  have e3 : (p + 1 - p) * 128 = 128 := by omega
  apply List.ext_getElem
  · simp only [List.length_take, List.length_drop, pageBytes_length]; omega
  · intro k h1 h2
    simp only [List.getElem_take, List.getElem_drop, pageBytes_getElem]
    congr 1
    omega

/-- The ghost `SHADOW` after one more event. -/
theorem shadowPage_append (history : List PortEvent) (e : PortEvent) (p : Nat) :
    shadowPage (history ++ [e]) p = e.shadow p (shadowPage history p) := by
  simp [shadowPage, List.foldl_append]

@[simp] theorem cutFlush_takeRstSample (s : State) : cutFlush (takeRstSample s) = cutFlush s := rfl

theorem cutFlush_idle {s : State} (h : s.phase = .idle) : cutFlush s = s.history := by simp [cutFlush, h]

theorem cutFlush_flushing {s : State} {t : Transfer} (h : s.phase = .flushing t) :
    cutFlush s = s.history ++ [.cut t.first t.last] := by simp [cutFlush, h]

/-! Painting -/

theorem paintPageAt_on {n : Int} (h : 0 ≤ n ∧ n ≤ 7) (o : Operator) (f : Byte → Byte) (img : ImgAddr) (x : Int)
    (s : State) : paintPageAt o f img x n s = paintPage o f img x ⟨n.toNat, by omega⟩ s := dif_pos h

theorem paintPageAt_off {n : Int} (h : ¬(0 ≤ n ∧ n ≤ 7)) (o : Operator) (f : Byte → Byte) (img : ImgAddr) (x : Int)
    (s : State) : paintPageAt o f img x n s = s := dif_neg h

/-! `paintFull`, field by field. Rewrite with these; a bare `rfl` that has to compare two painted states would have the
kernel unroll the loop over the store. -/

theorem paintFull_read (o : Operator) (img : ImgAddr) (s : State) (a : Nat) :
    (paintFull o img s).fb.read a = if a < 1024 then opByte o (s.fb.read a) (imgData s img a) else s.fb.read a :=
  Memory.read_wholeStore _ _ _

@[simp] theorem paintFull_dirty (o : Operator) (img : ImgAddr) (s : State) : (paintFull o img s).dirty = .full := rfl
@[simp] theorem paintFull_unsup (o : Operator) (img : ImgAddr) (s : State) : (paintFull o img s).unsup = s.unsup := rfl
@[simp] theorem paintFull_imem (o : Operator) (img : ImgAddr) (s : State) : (paintFull o img s).imem = s.imem := rfl

/-- Everything painting can write: the store and the dirty range, and `UNSUP` when the geometry is unsupported. -/
structure PaintFrame (s t : State) : Prop where
  ill : t.ill = s.ill
  phase : t.phase = s.phase
  imem : t.imem = s.imem
  host : t.host = s.host
  rst : t.rst = s.rst
  sink : t.sink = s.sink
  waits : t.waits = s.waits
  history : t.history = s.history

/-- The observed transfers follow the port's history. -/
theorem State.sent_congr {s t : State} (h : t.history = s.history) : t.sent = s.sent := by simp only [State.sent, h]

theorem PaintFrame.sent {s t : State} (h : PaintFrame s t) : t.sent = s.sent := State.sent_congr h.history

theorem PaintFrame.refl (s : State) : PaintFrame s s := ⟨rfl, rfl, rfl, rfl, rfl, rfl, rfl, rfl⟩

theorem paintPageAt_frame (o : Operator) (f : Byte → Byte) (img : ImgAddr) (x n : Int) (s : State) :
    PaintFrame s (paintPageAt o f img x n s) ∧ (paintPageAt o f img x n s).unsup = s.unsup := by
  unfold paintPageAt
  split
  · exact ⟨⟨rfl, rfl, rfl, rfl, rfl, rfl, rfl, rfl⟩, rfl⟩
  · exact ⟨.refl s, rfl⟩

/-- The five outcomes of `Paint`, with their conditions (R132, R133). -/
theorem paint_cases (o : Operator) (img : ImgAddr) (x y : Int) (s : State) :
    (offScreen x y (imgWidth s img) (imgHeight s img) = true ∧ paint o img x y s = s) ∨
    (offScreen x y (imgWidth s img) (imgHeight s img) = false ∧
      ((x = 0 ∧ y = 0 ∧ imgWidth s img = 128 ∧ imgHeight s img = 64) ∧ paint o img x y s = paintFull o img s ∨
       (imgHeight s img = 8 ∧ y % 8 = 0) ∧ paint o img x y s = paintAligned o img x y s ∨
       (imgHeight s img = 8 ∧ y % 8 ≠ 0) ∧ paint o img x y s = paintMisaligned o img x y s ∨
       (imgHeight s img ≠ 8 ∧ ¬(x = 0 ∧ y = 0 ∧ imgWidth s img = 128 ∧ imgHeight s img = 64)) ∧
         paint o img x y s = raise .unsupported s)) := by
  unfold paint
  by_cases h1 : offScreen x y (imgWidth s img) (imgHeight s img) = true
  · exact .inl ⟨h1, if_pos h1⟩
  · refine .inr ⟨by simpa using h1, ?_⟩
    by_cases h2 : x = 0 ∧ y = 0 ∧ imgWidth s img = 128 ∧ imgHeight s img = 64
    · exact .inl ⟨h2, (if_neg h1).trans (if_pos h2)⟩
    · by_cases h3 : imgHeight s img = 8
      · by_cases h4 : y % 8 = 0
        · exact .inr (.inl ⟨⟨h3, h4⟩, (if_neg h1).trans ((if_neg h2).trans (if_pos ⟨h3, h4⟩))⟩)
        · exact .inr (.inr (.inl ⟨⟨h3, h4⟩,
            (if_neg h1).trans ((if_neg h2).trans ((if_neg fun h => h4 h.2).trans (if_pos h3)))⟩))
      · exact .inr (.inr (.inr ⟨⟨h3, h2⟩,
          (if_neg h1).trans ((if_neg h2).trans ((if_neg fun h => h3 h.1).trans (if_neg h3)))⟩))

/-- What step 1 leaves (R132): the position is near enough for the sums of the later steps. -/
theorem offScreen_eq_false {x y : Int} {w h : Nat} :
    offScreen x y w h = false ↔ y ≤ 63 ∧ x ≤ 127 ∧ 0 < x + w ∧ 0 < y + h := by
  simp only [offScreen, decide_eq_false_iff_not]
  omega

/-- Painting writes the store, the dirty range and `UNSUP` only. -/
theorem paint_frame (o : Operator) (img : ImgAddr) (x y : Int) (s : State) : PaintFrame s (paint o img x y s) := by
  rcases paint_cases o img x y s with ⟨-, h⟩ | ⟨-, ⟨-, h⟩ | ⟨-, h⟩ | ⟨-, h⟩ | ⟨-, h⟩⟩ <;> rw [h]
  · exact .refl s
  · exact ⟨rfl, rfl, rfl, rfl, rfl, rfl, rfl, rfl⟩
  · exact (paintPageAt_frame ..).1
  · have h1 := (paintPageAt_frame o (fun b => b >>> shiftRem y) img x (firstRow y) s).1
    have h2 := (paintPageAt_frame o (fun b => b <<< (8 - shiftRem y)) img x (firstRow y + 1)
      (paintPageAt o (fun b => b >>> shiftRem y) img x (firstRow y) s)).1
    exact ⟨h2.ill.trans h1.ill, h2.phase.trans h1.phase, h2.imem.trans h1.imem, h2.host.trans h1.host,
      h2.rst.trans h1.rst, h2.sink.trans h1.sink, h2.waits.trans h1.waits, h2.history.trans h1.history⟩
  · exact ⟨rfl, rfl, rfl, rfl, rfl, rfl, rfl, rfl⟩

theorem imgRead_congr {s t : State} (h : t.imem = s.imem) (a : Nat) : imgRead t a = imgRead s a := by
  simp only [imgRead, h]

theorem imgWidth_congr {s t : State} (h : t.imem = s.imem) (img : ImgAddr) : imgWidth t img = imgWidth s img := by
  simp only [imgWidth, imgRead_congr h]

theorem imgHeight_congr {s t : State} (h : t.imem = s.imem) (img : ImgAddr) : imgHeight t img = imgHeight s img := by
  simp only [imgHeight, imgRead_congr h]

theorem imgData_congr {s t : State} (h : t.imem = s.imem) (img : ImgAddr) (k : Nat) :
    imgData t img k = imgData s img k := by
  simp only [imgData, imgRead_congr h]

theorem clip_le (x : Int) (w : Nat) : clipFirst x + (clipEnd x w - clipFirst x) ≤ max (clipFirst x) 128 := by
  unfold clipFirst clipEnd
  omega

theorem clipFirst_le {x : Int} (h : x ≤ 127) : clipFirst x ≤ 127 := by
  unfold clipFirst
  omega

/-- The store after painting one page: the clipped columns of that page composed, every other byte as before. -/
theorem paintPage_read (o : Operator) (f : Byte → Byte) (img : ImgAddr) (x : Int) (p : Fin 8) (s : State) (a : Nat) :
    (paintPage o f img x p s).fb.read a =
      if p * 128 + clipFirst x ≤ a ∧ a < p * 128 + clipEnd x (imgWidth s img) then
        opByte o (s.fb.read a) (f (imgData s img (((a - p * 128 : Nat) : Int) - x).toNat))
      else s.fb.read a := by
  have key : (p * 128 + clipFirst x ≤ a ∧
      a < p * 128 + clipFirst x + (clipEnd x (imgWidth s img) - clipFirst x)) ↔
      (p * 128 + clipFirst x ≤ a ∧ a < p * 128 + clipEnd x (imgWidth s img)) := by omega
  simp only [paintPage, markDirty_fb, updateStore_fb, Memory.read_updateRun, key]

theorem clipFirst_le_iff {x : Int} {c : Nat} : clipFirst x ≤ c ↔ max x 0 ≤ (c : Int) := by
  unfold clipFirst
  omega

theorem lt_clipEnd_iff {x : Int} {w c : Nat} : c < clipEnd x w ↔ (c : Int) < min (x + w) 128 := by
  unfold clipEnd
  omega

/-- The store after painting page `n`, if there is one, by page and column (R135, R137, R138). -/
theorem paintPageAt_read (o : Operator) (f : Byte → Byte) (img : ImgAddr) {x n : Int} (s : State) {q c : Nat}
    (hc : c < 128) (h7 : n ≤ 7) (hx : x ≤ 127) :
    (paintPageAt o f img x n s).fb.read (q * 128 + c) =
      if (q : Int) = n ∧ max x 0 ≤ (c : Int) ∧ (c : Int) < min (x + imgWidth s img) 128 then
        opByte o (s.fb.read (q * 128 + c)) (f (imgData s img ((c : Int) - x).toNat))
      else s.fb.read (q * 128 + c) := by
  by_cases hn : 0 ≤ n ∧ n ≤ 7
  · rw [paintPageAt_on hn, paintPage_read]
    have hend : clipEnd x (imgWidth s img) ≤ 128 := by unfold clipEnd; omega
    have hfirst := clipFirst_le hx
    by_cases hq : (q : Int) = n
    · obtain rfl : n.toNat = q := by omega
      have key : (n.toNat * 128 + clipFirst x ≤ n.toNat * 128 + c ∧
          n.toNat * 128 + c < n.toNat * 128 + clipEnd x (imgWidth s img)) ↔
          ((n.toNat : Int) = n ∧ max x 0 ≤ (c : Int) ∧ (c : Int) < min (x + imgWidth s img) 128) := by
        rw [Nat.add_le_add_iff_left, Nat.add_lt_add_iff_left, clipFirst_le_iff, lt_clipEnd_iff]
        exact ⟨fun h => ⟨hq, h⟩, fun h => h.2⟩
      simp only [key, Nat.add_sub_cancel_left]
    · rw [if_neg (by simp only; omega), if_neg (fun h => hq h.1)]
  · rw [paintPageAt_off hn, if_neg (by omega)]

/-- Painting one page keeps the store canonical. -/
theorem paintPage_wf {s : State} (h : s.fb.wf 1024) (o : Operator) (f : Byte → Byte) (img : ImgAddr) {x : Int}
    (hx : x ≤ 127) (p : Fin 8) : (paintPage o f img x p s).fb.wf 1024 := by
  refine Memory.wf_updateRun h ?_ _
  have := p.isLt
  have := clip_le x (imgWidth s img)
  have := clipFirst_le hx
  omega

theorem paintPageAt_wf {s : State} (h : s.fb.wf 1024) (o : Operator) (f : Byte → Byte) (img : ImgAddr) {x : Int}
    (hx : x ≤ 127) (n : Int) : (paintPageAt o f img x n s).fb.wf 1024 := by
  unfold paintPageAt
  split
  · exact paintPage_wf h o f img hx _
  · exact h

/-- Painting keeps the store canonical. -/
theorem paint_wf {s : State} (h : s.fb.wf 1024) (o : Operator) (img : ImgAddr) (x y : Int) :
    (paint o img x y s).fb.wf 1024 := by
  rcases paint_cases o img x y s with ⟨-, e⟩ | ⟨hs, ⟨-, e⟩ | ⟨-, e⟩ | ⟨-, e⟩ | ⟨-, e⟩⟩ <;> rw [e]
  · exact h
  · exact Memory.wf_wholeStore h _
  · exact paintPageAt_wf h o id img (offScreen_eq_false.mp hs).2.1 _
  · have hx := (offScreen_eq_false.mp hs).2.1
    exact paintPageAt_wf (paintPageAt_wf h o _ img hx _) o _ img hx _
  · exact h

end Sys2Proof.Machine
end

