-- ==== Sys2Proof/Laws/PerInstr.lean ====
section
/-! SUPPORT. Facts about every command as syntax, one lemma per constructor. -/

namespace Sys2Proof.Laws

/-- The word of a command carries the command's opcode in `cw[63:56]` (R71). -/
def OpcodeField.Statement (i : Instr) : Prop := opcodeField (encode i) = i.opcode

theorem OpcodeField.inval : OpcodeField.Statement .inval := by
  unfold OpcodeField.Statement; decide

theorem OpcodeField.mark (page : BitVec 3) : OpcodeField.Statement (.mark page) := by
  unfold OpcodeField.Statement; revert page; decide

theorem OpcodeField.clear : OpcodeField.Statement .clear := by
  unfold OpcodeField.Statement; decide

theorem OpcodeField.flush : OpcodeField.Statement .flush := by
  unfold OpcodeField.Statement; decide

theorem OpcodeField.setpix (on : Bool) (px : BitVec 7) (py : BitVec 6) :
    OpcodeField.Statement (.setpix on px py) := opcodeField_setpix on px py

theorem OpcodeField.draw (img : ImgAddr) (x y : BitVec 16) : OpcodeField.Statement (.draw img x y) :=
  opcodeField_encodeP _ img x y

theorem OpcodeField.clrimg (img : ImgAddr) (x y : BitVec 16) : OpcodeField.Statement (.clrimg img x y) :=
  opcodeField_encodeP _ img x y

theorem OpcodeField.blend (img : ImgAddr) (x y : BitVec 16) : OpcodeField.Statement (.blend img x y) :=
  opcodeField_encodeP _ img x y

end Sys2Proof.Laws
end

