-- ==== Sys2Proof/Laws/Step.lean ====
section
/-! SUPPORT. Everything a step can do. -/

namespace Sys2Proof.Machine

/-- The five things a step can do: reset, serve a flush in flight, nothing, execute a command, drop an illegal word. -/
theorem step_cases (s : State) :
    (rstSample s = true ∧ step s = .next (resetEngine (takeRstSample s))) ∨
    (rstSample s = false ∧
      ((∃ t, s.phase = .flushing t ∧ step s = .next (flushStep t (takeRstSample s))) ∨
       (s.phase = .idle ∧
         ((s.host = [] ∧ step s = .next (takeRstSample s)) ∨
          (∃ cw rest i, s.host = cw :: rest ∧ decode cw = .ok i ∧
            step s = exec i (takeHostWord (takeRstSample s))) ∨
          (∃ cw rest e, s.host = cw :: rest ∧ decode cw = .error e ∧
            step s = .next (raise .illegal (takeHostWord (takeRstSample s)))))))) := by
  unfold step advance
  by_cases hr : rstSample s = true
  · exact .inl ⟨hr, by simp [hr]⟩
  · refine .inr ⟨by simpa using hr, ?_⟩
    cases hp : s.phase with
    | flushing t => exact .inl ⟨t, rfl, by simp [hr]⟩
    | idle =>
      refine .inr ⟨rfl, ?_⟩
      cases hh : s.host with
      | nil => exact .inl ⟨rfl, by simp [hr, portStep, hh]⟩
      | cons cw rest =>
        cases hd : decode cw with
        | ok i => exact .inr (.inl ⟨cw, rest, i, rfl, hd, by simp [hr, portStep, acceptWord, hh, hd]⟩)
        | error e => exact .inr (.inr ⟨cw, rest, e, rfl, hd, by simp [hr, portStep, acceptWord, hh, hd]⟩)

/-- One step of a flush in flight: completion or waiting, by the sink's answer. -/
theorem flushStep_cases (t : Transfer) (s : State) :
    (sinkAnswer s = true ∧ flushStep t s = completeFlush t (takeSinkAnswer s)) ∨
    (sinkAnswer s = false ∧ flushStep t s = takeSinkAnswer s) := by
  unfold flushStep
  cases h : sinkAnswer s
  · exact .inr ⟨rfl, by simp⟩
  · exact .inl ⟨rfl, by simp⟩

@[simp] theorem sinkAnswer_takeRstSample (s : State) : sinkAnswer (takeRstSample s) = sinkAnswer s := rfl

theorem sinkAnswer_cons {s : State} {b : Bool} {rest : List Bool} (h : s.sink = b :: rest) : sinkAnswer s = b := by
  simp [sinkAnswer, h]

/-! `withFetchWord` -/

@[simp] theorem withFetchWord_host (s : State) (nbits w : Nat) :
    (s.withFetchWord nbits w).host = tableWord nbits w :: s.host := rfl
@[simp] theorem withFetchWord_phase (s : State) (nbits w : Nat) : (s.withFetchWord nbits w).phase = .idle := rfl
@[simp] theorem withFetchWord_rst (s : State) (nbits w : Nat) : (s.withFetchWord nbits w).rst = false :: s.rst := rfl
@[simp] theorem withFetchWord_fb (s : State) (nbits w : Nat) : (s.withFetchWord nbits w).fb = s.fb := rfl
@[simp] theorem withFetchWord_dirty (s : State) (nbits w : Nat) : (s.withFetchWord nbits w).dirty = s.dirty := rfl
@[simp] theorem withFetchWord_imem (s : State) (nbits w : Nat) : (s.withFetchWord nbits w).imem = s.imem := rfl

end Sys2Proof.Machine
end

