-- ==== Sys2Proof/Tests/Slice0.lean ====
section
/-! SUPPORT. Tests whose expected results are the spec's own vectors (spec/95_test_vectors.md and the examples of the
rules), and, for every statement with hypotheses, a witness that meets them. -/

namespace Sys2Proof.Tests

open Sys2Proof.Machine

-- One theorem after the other: many small evaluations side by side reserve more memory than the checks allow.
set_option Elab.async false

/-! ## Helpers -/

/-- The test image memory of spec/95_test_vectors.md: the descriptors `0x0100` to `0x0150`, glyphs 0, 3 and 5, and of the
image at `0x0400` the descriptor and the data bytes 0, 1, 128, 511, 1023 (data byte `k` is `(3*k + 1) mod 256`). -/
def testImages : Memory :=
  [(0x100, 0x01#8), (0x101, 0x08#8), (0x102, 0xFF#8),
   (0x110, 0x04#8), (0x111, 0x08#8), (0x112, 0x01#8), (0x113, 0x02#8), (0x114, 0x04#8), (0x115, 0x08#8),
   (0x121, 0x08#8), (0x130, 0x01#8), (0x131, 0x10#8), (0x132, 0xFF#8), (0x133, 0xFF#8), (0x140, 0x01#8),
   (0x150, 0x02#8), (0x151, 0x08#8), (0x152, 0xA5#8), (0x153, 0x3C#8)] ++
  [(0x300, 0x06#8), (0x301, 0x08#8), (0x302, 0x01#8), (0x303, 0x02#8), (0x304, 0x03#8), (0x305, 0x04#8),
   (0x306, 0x05#8), (0x307, 0x06#8),
   (0x400, 0x80#8), (0x401, 0x40#8), (0x402, 0x01#8), (0x403, 0x04#8), (0x482, 0x81#8), (0x601, 0xFE#8),
   (0x801, 0xFE#8)]

/-- The image memory of the wrapping descriptor of spec/95_test_vectors.md (`DRAW 0xFFFF, 3, 24`). -/
def wrapImages : Memory := [(0x0000, 0x08#8), (0x0001, 0x5A#8), (0xFFFF, 0x01#8)]

/-- `DIGITS[d] = 0x0300 + 8*d` (spec/95_test_vectors.md). -/
def testDigits (d : Fin 10) : ImgAddr := BitVec.ofNat 16 (0x300 + 8 * d.val)

/-- An idle engine with a given store and dirty range. -/
def idleWith (fb : Memory) (d : DirtyRange) : State :=
  { fb := fb, dirty := d, unsup := false, ill := false, phase := .idle, imem := testImages, host := [], rst := [],
    sink := [], waits := 0, history := [] }

/-- The starting state of the vectors: the store all `0x00`, the range clean. -/
def blank : State := idleWith [] .clean

/-- The range `(f, l)`, ordered or not by the caller's proof. -/
def range (f l : BitVec 4) (h : (f.toNat = 8 ∧ l.toNat = 8) ∨ (f.toNat ≤ l.toNat ∧ l.toNat ≤ 7)) : DirtyRange := ⟨f, l, h⟩

/-- The outcome is a next state with the property. -/
def lands (o : Host.Outcome State Fault Refusal) (p : State → Bool) : Bool :=
  match o with
  | .next t => p t
  | .fault _ => false
  | .refused _ => false

/-- An outcome is a given next state once the kernel has compared the two states. -/
theorem next_of {o : Host.Outcome State Fault Refusal} {s : State} (h : lands o (fun t => decide (t = s)) = true) :
    o = .next s := by
  cases o with
  | next t => exact congrArg _ (of_decide_eq_true h)
  | fault r => cases h
  | refused r => cases h

/-- The range is `(f, l)`. -/
def rangeIs (t : State) (f l : BitVec 4) : Bool := t.dirty.fd == f && t.dirty.ld == l

/-- The whole store, as its non-zero bytes, and the range after a command. -/
def leaves (i : Instr) (s : State) (fb : Memory) (f l : BitVec 4) : Bool :=
  lands (exec i s) (fun t => t.fb == fb && rangeIs t f l && !t.unsup && !t.ill)

/-- The word on the command port, the engine idle. -/
def offered (cw : CmdWord) (s : State) : State := { s with host := [cw] }

/-- A full transfer of zeros. -/
def zeroTransfer : Transfer := ⟨0#3, 7#3, List.replicate 1024 0x00#8⟩

/-- The transfer of a one-page flush of the blank store. -/
def pageTransfer : Transfer := ⟨2#3, 2#3, List.replicate 128 0x00#8⟩

/-- A flush of page 2 in flight, with the sink's coming answers. -/
def flushingPage (answers : List Bool) : State :=
  { idleWith [] (range 2#4 2#4 (by decide)) with phase := .flushing pageTransfer, sink := answers }

/-! ## WellFormed: each range check refuses an ill-formed line (R90, R160), and the assembler with it -/

theorem test_wf_mark : (Line.mark 8).wellFormed = false ∧ (Line.mark (-1)).wellFormed = false ∧
    (Line.mark 7).wellFormed = true := by decide
theorem test_wf_setpix_on : (Line.setpix 2 0 0).wellFormed = false ∧ (Line.setpix (-1) 0 0).wellFormed = false := by decide
theorem test_wf_setpix_px : (Line.setpix 1 128 0).wellFormed = false ∧ (Line.setpix 1 (-1) 0).wellFormed = false := by decide
theorem test_wf_setpix_py : (Line.setpix 1 0 64).wellFormed = false ∧ (Line.setpix 1 0 (-1)).wellFormed = false ∧
    (Line.setpix 1 127 63).wellFormed = true := by decide
theorem test_wf_draw : (Line.draw 65536 0 0).wellFormed = false ∧ (Line.draw (-1) 0 0).wellFormed = false ∧
    (Line.draw 0 32768 0).wellFormed = false ∧ (Line.draw 0 (-32769) 0).wellFormed = false ∧
    (Line.draw 0 0 32768).wellFormed = false ∧ (Line.draw 0 0 (-32769)).wellFormed = false ∧
    (Line.draw 65535 32767 (-32768)).wellFormed = true := by decide
theorem test_wf_clrimg : (Line.clrimg 65536 0 0).wellFormed = false ∧ (Line.clrimg 0 32768 0).wellFormed = false ∧
    (Line.clrimg 0 0 (-32769)).wellFormed = false := by decide
theorem test_wf_blend : (Line.blend 65536 0 0).wellFormed = false ∧ (Line.blend 0 (-32769) 0).wellFormed = false ∧
    (Line.blend 0 0 32768).wellFormed = false := by decide
theorem test_wf_drawnumr : (Line.drawnumr 4294967296 0 0).wellFormed = false ∧
    (Line.drawnumr (-1) 0 0).wellFormed = false ∧ (Line.drawnumr 0 0 8).wellFormed = false := by decide
theorem test_wf_drawnuml : (Line.drawnuml 4294967296 0 0).wellFormed = false ∧
    (Line.drawnuml (-1) 0 0).wellFormed = false ∧ (Line.drawnuml 0 0 (-1)).wellFormed = false := by decide
/-- R160: a position that takes a glyph outside the 16-bit range makes the expansion impossible to encode. -/
theorem test_wf_expansion : assemble (.drawnumr 5 (-32765) 0) testDigits = none ∧
    assemble (.drawnuml 10 32765 0) testDigits = none := by decide
theorem test_assemble_refuses : assemble (.mark 8) testDigits = none ∧ assemble (.setpix 1 128 0) testDigits = none ∧
    assemble (.blend 0 40000 0) testDigits = none := by decide

/-! ## Decode and encode: the words of R92 and of spec/95_test_vectors.md E -/

theorem test_decode_inval : decode 0x0100000000000000#64 = .ok .inval := by decide
theorem test_decode_mark : decode 0x0200000000000000#64 = .ok (.mark 0#3) ∧
    decode 0x0200000000000007#64 = .ok (.mark 7#3) ∧ decode 0x0200000000000003#64 = .ok (.mark 3#3) := by decide
theorem test_decode_clear : decode 0x0300000000000000#64 = .ok .clear := by decide
theorem test_decode_flush : decode 0x0400000000000000#64 = .ok .flush := by decide
theorem test_decode_setpix : decode 0x0800000000010000#64 = .ok (.setpix true 0#7 0#6) ∧
    decode 0x0800000000017F3F#64 = .ok (.setpix true 127#7 63#6) ∧
    decode 0x080000000000050A#64 = .ok (.setpix false 5#7 10#6) := by decide
theorem test_decode_draw : decode 0x1000003E00080110#64 = .ok (.draw 0x0110#16 62#16 8#16) ∧
    decode 0x10007FFF80000000#64 = .ok (.draw 0x0000#16 (BitVec.ofInt 16 32767) (BitVec.ofInt 16 (-32768))) := by decide
theorem test_decode_clrimg :
    decode 0x1100000A003D0100#64 = .ok (.clrimg 0x0100#16 10#16 61#16) ∧
    decode 0x1100000A000D0150#64 = .ok (.clrimg 0x0150#16 10#16 13#16) := by decide
theorem test_decode_blend :
    decode 0x1200000BFFFD0100#64 = .ok (.blend 0x0100#16 11#16 (BitVec.ofInt 16 (-3))) ∧
    decode 0x1200FFFFFFFFFFFF#64 = .ok (.blend 0xFFFF#16 (BitVec.ofInt 16 (-1)) (BitVec.ofInt 16 (-1))) := by decide
theorem test_illegal_opcode : decode 0x0000000000000000#64 = .error .unassignedOpcode ∧
    decode 0xFFFFFFFFFFFFFFFF#64 = .error .unassignedOpcode ∧
    decode 0x0500000000000000#64 = .error .unassignedOpcode ∧
    decode 0x1300000000030100#64 = .error .unassignedOpcode := by decide
theorem test_illegal_reserved : decode 0x0100000000000001#64 = .error .reservedBit ∧
    decode 0x0200000000000008#64 = .error .reservedBit ∧ decode 0x0280000000000003#64 = .error .reservedBit ∧
    decode 0x0400000000000001#64 = .error .reservedBit := by decide
theorem test_illegal_reserved_setpix : decode 0x0800000000008000#64 = .error .reservedBit ∧
    decode 0x0800000000000040#64 = .error .reservedBit ∧ decode 0x0800000000020000#64 = .error .reservedBit := by decide
theorem test_illegal_reserved_draw : decode 0x1001000000000100#64 = .error .reservedBit ∧
    decode 0x1001000000000000#64 = .error .reservedBit := by decide
theorem test_encode : encode (.draw 0x0100#16 0#16 3#16) = 0x1000000000030100#64 ∧
    encode (.blend 0x0200#16 (BitVec.ofInt 16 (-2)) (BitVec.ofInt 16 (-3))) = 0x1200FFFEFFFD0200#64 ∧
    encode (.clrimg 0x0150#16 10#16 13#16) = 0x1100000A000D0150#64 ∧
    encode (.setpix true 5#7 10#6) = 0x080000000001050A#64 ∧
    encode (.setpix false 127#7 63#6) = 0x0800000000007F3F#64 ∧
    encode (.mark 3#3) = 0x0200000000000003#64 := by decide
theorem test_encode_plain : encode .inval = 0x0100000000000000#64 ∧ encode .clear = 0x0300000000000000#64 ∧
    encode .flush = 0x0400000000000000#64 := by decide
theorem test_table_word : decodeTableWord 64 0x0200000000000005 = some (.mark 5#3) ∧
    decodeTableWord 64 0x1300000000000000 = none := by decide

/-! ## Listings: lines of R92 and of R90, with comment, sign, hex, symbol and alias -/

theorem test_listing : assembleListing [("ball".toList, 0x150)] testDigits
    ["DRAW 0x0100, 0, 3".toList, "BLEND 0x0200, -2,-3 ; up left".toList, " CLRIMG ball, 10, 13".toList,
     "set_pixel 1, 5, 10".toList, "; a comment".toList, "MARK 3".toList, "flush".toList] =
    some [0x1000000000030100#64, 0x1200FFFEFFFD0200#64, 0x1100000A000D0150#64, 0x080000000001050A#64,
      0x0200000000000003#64, 0x0400000000000000#64] := by decide +kernel
theorem test_listing_refuses : assembleText [] testDigits "MARK 8".toList = none ∧
    assembleText [] testDigits "Mark 3".toList = none ∧ assembleText [] testDigits "MARK".toList = none ∧
    assembleText [] testDigits "DRAW ball, 0, 0".toList = none ∧ assembleText [] testDigits "SETPIX 1, , 0".toList = none := by
  decide +kernel
/-- Log entry 12: one refused line leaves the listing without words. -/
theorem test_listing_refused_line :
    assembleListing [] testDigits ["MARK 3".toList, "MARK 8".toList, "FLUSH".toList] = none := by decide +kernel
theorem test_listing_pseudo : assembleText [] testDigits "DRAWNUML 0, 10, 2".toList =
    some [0x1000000A00100300#64, 0x0200000000000002#64] := by decide +kernel

/-! ## The operator: the table of R107 -/

theorem test_op_set : opByte .set 0xAA#8 0x1F#8 = 0x1F#8 ∧ opByte .set 0xFF#8 0x00#8 = 0x00#8 := by decide
theorem test_op_clear : opByte .clear 0xFF#8 0x1F#8 = 0xE0#8 ∧ opByte .clear 0xFF#8 0xE0#8 = 0x1F#8 ∧
    opByte .clear 0x81#8 0x28#8 = 0x81#8 ∧ opByte .clear 0x00#8 0xFF#8 = 0x00#8 := by decide
theorem test_op_over : opByte .over 0xAA#8 0x1F#8 = 0xBF#8 ∧ opByte .over 0xAA#8 0xE0#8 = 0xEA#8 ∧
    opByte .over 0x81#8 0x28#8 = 0xA9#8 ∧ opByte .over 0xFF#8 0x00#8 = 0xFF#8 := by decide

/-! ## The dirty range: R118 and the D vectors -/

theorem test_mark_clean : leaves (.mark 0#3) blank [] 0#4 0#4 ∧ leaves (.mark 7#3) blank [] 7#4 7#4 := by decide
theorem test_mark_extends :
    leaves (.mark 6#3) (idleWith [] (range 2#4 3#4 (by decide))) [] 2#4 6#4 ∧
    leaves (.mark 0#3) (idleWith [] (range 2#4 6#4 (by decide))) [] 0#4 6#4 ∧
    leaves (.mark 4#3) (idleWith [] (range 0#4 6#4 (by decide))) [] 0#4 6#4 := by decide
theorem test_inval : leaves .inval blank [] 0#4 7#4 ∧
    leaves .inval (idleWith [(5, 0x55#8)] (range 2#4 3#4 (by decide))) [(5, 0x55#8)] 0#4 7#4 := by decide
theorem test_clear : leaves .clear (idleWith [(0, 0x55#8), (1023, 0xFF#8)] (range 4#4 4#4 (by decide))) [] 0#4 7#4 := by
  decide +kernel
/-- R112: `CLEAR` clears pixels, not diagnostics. -/
theorem test_clear_keeps_diagnostics : lands (exec .clear { blank with unsup := true, ill := true })
    (fun t => t.unsup && t.ill) := by decide

/-! ## FLUSH: the F vectors -/

theorem test_flush_clean : exec .flush blank = .next blank := next_of (by decide)
/-- `(1,2)`: the transfer is `(1, 2, FB[128..383])`, 256 bytes; `STATUS` while it is in flight is `0x0321`. -/
theorem test_flush_dirty : lands (exec .flush (idleWith [(127, 0x11#8), (128, 0x22#8), (383, 0x33#8), (384, 0x44#8)]
    (range 1#4 2#4 (by decide)))) (fun t =>
      t.phase == .flushing ⟨1#3, 2#3, 0x22#8 :: (List.replicate 254 0x00#8 ++ [0x33#8])⟩ && rangeIs t 1#4 2#4 &&
        status t == 0x0321#16) := by decide +kernel
/-- The sink completes: the range is clean, the engine idle, the transfer observed. -/
theorem test_flush_completes : lands (step (flushingPage [true])) (fun t =>
    rangeIs t 8#4 8#4 && t.phase == .idle && t.sent == [pageTransfer] && status t == 0x0088#16) := by decide +kernel
/-- The sink does not complete: nothing of the engine moves and the offered word is not taken (R184). -/
theorem test_flush_hangs : lands (step (offered 0x0100000000000000#64 (flushingPage [false]))) (fun t =>
    rangeIs t 2#4 2#4 && t.phase == .flushing pageTransfer && t.sent == [] && t.host.length == 1 &&
      !cmdReady t) := by decide +kernel
/-- R222: reset is the way out; the cut transfer is not observed, and what the display holds of its page is unknown (U4). -/
theorem test_reset_cuts_flush : lands (step { flushingPage [] with rst := [true], unsup := true }) (fun t =>
    rangeIs t 0#4 7#4 && t.phase == .idle && t.sent == [] && !t.unsup && t.history == [.cut 2#3 2#3]) := by decide +kernel

/-- U4: `SHADOW` of the cut page becomes unknown, that of another page stays, and sending the page makes it known. -/
theorem test_shadow_of_cut_page :
    shadowPage [.completed zeroTransfer, .cut 2#3 2#3] 2 = none ∧
    shadowPage [.completed zeroTransfer, .cut 2#3 2#3] 3 = some (List.replicate 128 0x00#8) ∧
    shadowPage [.completed zeroTransfer, .cut 2#3 2#3, .completed pageTransfer] 2 =
      some (List.replicate 128 0x00#8) := by decide +kernel

/-! ## Painting: the P vectors -/

/-- S1 and the vertical sweep at `y = 3`. -/
theorem test_draw_misaligned : leaves (.draw 0x0100#16 0#16 3#16) blank [(0, 0x1F#8), (128, 0xE0#8)] 0#4 1#4 := by decide
theorem test_draw_aligned_clipped : leaves (.draw 0x0110#16 (BitVec.ofInt 16 (-3)) 8#16) blank [(128, 0x08#8)] 1#4 1#4 ∧
    leaves (.draw 0x0110#16 126#16 8#16) blank [(254, 0x01#8), (255, 0x02#8)] 1#4 1#4 := by decide
theorem test_blend_misaligned : leaves (.blend 0x0100#16 0#16 3#16) (idleWith [(0, 0xAA#8), (128, 0xAA#8)] .clean)
    [(0, 0xBF#8), (128, 0xEA#8)] 0#4 1#4 := by decide
/-- A two-column image across the top edge. -/
theorem test_blend_top_edge : leaves (.blend 0x0150#16 10#16 (BitVec.ofInt 16 (-3)))
    (idleWith [(10, 0x81#8), (11, 0x81#8)] .clean) [(10, 0xA9#8), (11, 0xE1#8)] 0#4 0#4 := by decide
theorem test_clrimg_misaligned : leaves (.clrimg 0x0100#16 0#16 3#16) (idleWith [(0, 0xFF#8), (128, 0xFF#8)] .clean)
    [(0, 0xE0#8), (128, 0x1F#8)] 0#4 1#4 := by decide
theorem test_clrimg_two_columns : leaves (.clrimg 0x0150#16 10#16 5#16)
    (idleWith [(10, 0x81#8), (11, 0x81#8), (138, 0x81#8), (139, 0x81#8)] .clean)
    [(10, 0x80#8), (11, 0x80#8), (138, 0x81#8), (139, 0x01#8)] 0#4 1#4 := by decide
/-- The vertical sweep's edges: rejected at -8 and 64, page 0 alone at -7, page 7 alone at 63. -/
theorem test_paint_sweep : leaves (.draw 0x0100#16 0#16 (BitVec.ofInt 16 (-8))) blank [] 8#4 8#4 ∧
    leaves (.draw 0x0100#16 0#16 64#16) blank [] 8#4 8#4 ∧
    leaves (.draw 0x0100#16 0#16 (BitVec.ofInt 16 (-7))) blank [(0, 0x80#8)] 0#4 0#4 ∧
    leaves (.draw 0x0100#16 0#16 55#16) blank [(768, 0x01#8), (896, 0xFE#8)] 6#4 7#4 ∧
    leaves (.draw 0x0100#16 0#16 56#16) blank [(896, 0xFF#8)] 7#4 7#4 ∧
    leaves (.draw 0x0100#16 0#16 63#16) blank [(896, 0x01#8)] 7#4 7#4 := by decide
/-- Width 0: rejected at `x = 0`; at `x = 5` the page is marked and no byte changes. -/
theorem test_paint_width_zero : leaves (.draw 0x0120#16 0#16 0#16) blank [] 8#4 8#4 ∧
    leaves (.draw 0x0120#16 5#16 0#16) blank [] 0#4 0#4 ∧ leaves (.draw 0x0120#16 5#16 3#16) blank [] 0#4 1#4 := by decide
/-- Heights 16, 0 and a height-64 image off the origin: `UNSUP`, nothing else; off screen nothing at all. -/
theorem test_paint_unsupported :
    exec (.draw 0x0130#16 0#16 0#16) blank = .next { blank with unsup := true } ∧
    exec (.draw 0x0130#16 0#16 (BitVec.ofInt 16 (-16))) blank = .next blank ∧
    exec (.draw 0x0140#16 0#16 1#16) blank = .next { blank with unsup := true } ∧
    exec (.blend 0x0400#16 1#16 0#16) blank = .next { blank with unsup := true } ∧
    exec (.blend 0x0400#16 0#16 (BitVec.ofInt 16 (-64))) blank = .next blank :=
  ⟨next_of (by decide), next_of (by decide), next_of (by decide), next_of (by decide), next_of (by decide)⟩
/-- `DRAW 0xFFFF, 3, 24`: the descriptor wraps (R46). -/
theorem test_paint_descriptor_wraps :
    leaves (.draw 0xFFFF#16 3#16 24#16) { blank with imem := wrapImages } [(387, 0x5A#8)] 3#4 3#4 := by decide
/-- Full screen: `FB[k] = (3*k + 1) mod 256` where the test memory lists the data byte. -/
theorem test_paint_full : leaves (.draw 0x0400#16 0#16 0#16) (idleWith [(7, 0x55#8)] .clean)
    [(0, 0x01#8), (1, 0x04#8), (128, 0x81#8), (511, 0xFE#8), (1023, 0xFE#8)] 0#4 7#4 := by decide +kernel

/-! ## SETPIX: the X vectors -/

theorem test_setpix_on : leaves (.setpix true 5#7 10#6) blank [(133, 0x04#8)] 0#4 7#4 ∧
    leaves (.setpix true 127#7 63#6) blank [(1023, 0x80#8)] 0#4 7#4 := by decide
theorem test_setpix_off : leaves (.setpix false 127#7 63#6) (idleWith [(1023, 0xFF#8)] .clean) [(1023, 0x7F#8)] 0#4 7#4 ∧
    leaves (.setpix false 5#7 10#6) (idleWith [(133, 0x04#8)] .clean) [] 0#4 7#4 := by decide

/-! ## Steps, reset, `STATUS` -/

/-- R31 and its row of spec/95_test_vectors.md R. -/
theorem test_reset_status : status State.reset = 0x0170#16 ∧ cmdReady State.reset = true := by decide
/-- Program 3 of spec/95_test_vectors.md, lines 9 and 10: `STATUS` `0x0488`, then `0x0C88`. -/
theorem test_step_diagnostics :
    lands (step (offered 0x1000000000000130#64 blank)) (fun t => status t == 0x0488#16) ∧
    lands (step (offered 0x1300000000000130#64 { blank with unsup := true }))
      (fun t => t == { blank with unsup := true, ill := true } && status t == 0x0C88#16) := by decide
theorem test_step_no_word : step blank = .next blank := next_of (by decide)
/-- The host's word waits behind the placed one, and the placed one runs first. -/
theorem test_fetch_word : lands (step ((offered 0x0400000000000000#64 (flushingPage [])).withFetchWord 64
    0x0200000000000005)) (fun t => rangeIs t 2#4 5#4 && t.host == [0x0400000000000000#64]) := by decide +kernel

/-! ## Number renderer: the N vectors; the display port -/

theorem test_n1_n2 : assemble (.drawnumr 0 40 2) testDigits = some [.mark 2#3] ∧
    assemble (.drawnuml 0 10 2) testDigits = some [.draw 0x0300#16 10#16 16#16, .mark 2#3] := by decide
theorem test_n3 : assemble (.drawnumr 305 40 2) testDigits = some [.draw 0x0328#16 34#16 16#16,
    .draw 0x0300#16 28#16 16#16, .draw 0x0318#16 22#16 16#16, .mark 2#3] := by decide
theorem test_n4 : assemble (.drawnuml 305 10 2) testDigits = some [.draw 0x0318#16 10#16 16#16,
    .draw 0x0300#16 16#16 16#16, .draw 0x0328#16 22#16 16#16, .mark 2#3] := by decide
theorem test_n5_n6 : assemble (.drawnumr 7 6 0) testDigits = some [.draw 0x0338#16 0#16 0#16, .mark 0#3] ∧
    assemble (.drawnumr 10 3 7) testDigits = some [.draw 0x0300#16 (BitVec.ofInt 16 (-3)) 56#16,
      .draw 0x0308#16 (BitVec.ofInt 16 (-9)) 56#16, .mark 7#3] := by decide
theorem test_n7 : expandLeft testDigits 4294967295 0 0 =
    [.draw 0x320 0 0, .draw 0x310 6 0, .draw 0x348 12 0, .draw 0x320 18 0, .draw 0x348 24 0, .draw 0x330 30 0,
     .draw 0x338 36 0, .draw 0x310 42 0, .draw 0x348 48 0, .draw 0x328 54 0, .mark 0] := by decide
/-- R180: `disp_eot` is 1 on the last byte, the range constant. -/
theorem test_beats : (transferBeats ⟨3#3, 3#3, [0x11#8, 0x22#8]⟩) =
    [⟨3#3, 3#3, 0x11#8, false⟩, ⟨3#3, 3#3, 0x22#8, true⟩] := by decide

/-! ## Witnesses: states and operands that meet the hypotheses of the statements, each clause at a boundary -/

theorem witness_EncodeAfterDecode : decode 0x1200FFFFFFFFFFFF#64 = .ok (.blend 0xFFFF#16 0xFFFF#16 0xFFFF#16) := by decide
theorem witness_WordSpellsRowIffMaskMatches : ∀ i, decode 0x1300000000000000#64 ≠ .ok i := by
  intro i h; rw [show decode 0x1300000000000000#64 = .error .unassignedOpcode by decide] at h; cases h
theorem witness_OperandsAreFieldsOfTheWord :
    decode 0x0200000000000007#64 = .ok (.mark 7#3) ∧ decode 0x0800000000017F3F#64 = .ok (.setpix true 127#7 63#6) ∧
    decode 0x10007FFF8000FFFF#64 = .ok (paintInstr .set 0xFFFF#16 0x7FFF#16 0x8000#16) := by decide
theorem witness_IllegalWordSetsIllOnly :
    rstSample (offered 0#64 blank) = false ∧ (offered 0#64 blank).phase = .idle ∧
    (offered 0#64 blank).host = [0#64] ∧ decode 0#64 = .error .unassignedOpcode := by decide
theorem witness_StepRunsDecodedCommand :
    rstSample (offered 0x0200000000000007#64 blank) = false ∧ (offered 0x0200000000000007#64 blank).phase = .idle ∧
    (offered 0x0200000000000007#64 blank).host = [0x0200000000000007#64] ∧
    decode 0x0200000000000007#64 = .ok (.mark 7#3) := by decide
theorem witness_ReadinessAndIdleAndWaitingSteps :
    (rstSample blank = false ∧ blank.phase = .idle ∧ blank.host = []) ∧
    (rstSample (flushingPage [false]) = false ∧ (flushingPage [false]).phase = .flushing pageTransfer ∧
      sinkAnswer (flushingPage [false]) = false) := by decide +kernel
theorem witness_HostWordsAreTakenInOrder : step (offered 0x0100000000000000#64 blank) = .next { blank with dirty := .full } :=
  next_of (by decide)
theorem witness_ResetInputEntersResetState : rstSample { flushingPage [] with rst := [true] } = true := by decide
/-- A completion; a reset that cuts a transfer of a page that was sent before; a step that does neither. -/
theorem witness_ShadowFollowsThePort :
    (Completes (flushingPage [true]) pageTransfer ∧
      step (flushingPage [true]) =
        .next { flushingPage [] with dirty := .clean, phase := .idle, history := [.completed pageTransfer] }) ∧
    (rstSample { flushingPage [] with rst := [true], history := [.completed zeroTransfer] } = true ∧
      ∃ t, step { flushingPage [] with rst := [true], history := [.completed zeroTransfer] } = .next t ∧
        t.history = [.completed zeroTransfer, .cut 2#3 2#3]) ∧
    (step blank = .next blank ∧ (∀ tr, ¬ Completes blank tr) ∧ rstSample blank = false) :=
  ⟨⟨⟨rfl, rfl, rfl⟩, rfl⟩, ⟨rfl, _, rfl, rfl⟩, next_of (by decide), fun _ h => Phase.noConfusion h.2.1, rfl⟩
theorem witness_MarkExtendsRange : 7 < blank.dirty.fd.toNat ∧
    (idleWith [] (range 7#4 7#4 (by decide))).dirty.fd.toNat ≤ 7 ∧
    (idleWith [] (range 2#4 5#4 (by decide))).dirty.covers (5#3).toNat := by decide
theorem witness_MarkingLaws :
    exec (.mark 0#3) (idleWith [] (range 3#4 3#4 (by decide))) = .next (idleWith [] (range 0#4 3#4 (by decide))) ∧
    exec (.mark 7#3) (idleWith [] (range 3#4 3#4 (by decide))) = .next (idleWith [] (range 3#4 7#4 (by decide))) :=
  ⟨next_of (by decide), next_of (by decide)⟩
theorem witness_OnlyCompletionShrinksRange :
    step (offered 0x0200000000000007#64 (idleWith [] (range 3#4 3#4 (by decide)))) =
      .next (idleWith [] (range 3#4 7#4 (by decide))) ∧
    (∀ tr, ¬ Completes (offered 0x0200000000000007#64 (idleWith [] (range 3#4 3#4 (by decide)))) tr) ∧
    (idleWith [] (range 3#4 3#4 (by decide))).dirty.covers 3 :=
  ⟨next_of (by decide), fun _ h => Phase.noConfusion h.2.1, by decide⟩
theorem witness_FlushWhenCleanDoesNothing : 7 < blank.dirty.fd.toNat := by decide
theorem witness_FlushWhenDirtyStartsAndCompletes :
    (idleWith [] (range 7#4 7#4 (by decide))).dirty.fd.toNat ≤ 7 ∧ (idleWith [] .full).dirty.fd.toNat ≤ 7 ∧
    Completes (flushingPage [true]) pageTransfer ∧
    (rstSample (flushingPage [false]) = false ∧ (flushingPage [false]).phase = .flushing pageTransfer ∧
      sinkAnswer (flushingPage [false]) = false) := ⟨by decide, by decide, ⟨rfl, rfl, rfl⟩, rfl, rfl, rfl⟩
theorem witness_CompletionAppendsTransfer : Completes (flushingPage [true]) pageTransfer := ⟨rfl, rfl, rfl⟩
theorem witness_HungFlushWaitsForEver :
    ((flushingPage [false, false]).phase = .flushing pageTransfer ∧
      (∀ b ∈ (flushingPage [false, false]).rst.take 2, b = false) ∧
      (flushingPage [false, false]).sink.take 2 = List.replicate 2 false) ∧
    (sinkAnswer (flushingPage [false]) = false ∧ step (flushingPage [false]) = .next (flushingPage [])) :=
  ⟨⟨rfl, by decide, rfl⟩, rfl, rfl⟩
theorem witness_FlushEndsWhenSinkCompletes :
    (flushingPage [false, true]).phase = .flushing pageTransfer ∧
    (∀ b ∈ (flushingPage [false, true]).rst.take 2, b = false) ∧
    (flushingPage [false, true]).sink = List.replicate 1 false ++ true :: [] := ⟨rfl, by decide, rfl⟩

/-- A `FLUSH` on the port, page 7 dirty, a sink that completes at its second answer. -/
def flushOffered : State :=
  { idleWith [] (range 7#4 7#4 (by decide)) with host := [0x0400000000000000#64], sink := [false, true] }

theorem takes_flush : Takes flushOffered .flush := ⟨rfl, rfl, 0x0400000000000000#64, [], rfl, by decide⟩

theorem witness_FlushDeliversTheStoreAsTaken : Takes flushOffered .flush ∧ flushOffered.dirty.fd.toNat ≤ 7 ∧
    (∀ b ∈ flushOffered.rst.take 3, b = false) ∧ flushOffered.sink = List.replicate 1 false ++ true :: [] :=
  ⟨takes_flush, by decide, by decide, rfl⟩

theorem images_wf : Memory.wf 65536 testImages := by decide +kernel

/-- The invariant of a state on the blank store with the test images. -/
theorem blank_inv {s : State} (h1 : s.fb = []) (h2 : s.imem = testImages) (h3 : s.inFlight)
    (h4 : ∀ t ∈ s.sent, t.wf) : s.Inv := ⟨by rw [h1]; decide, h2 ▸ images_wf, h3, h4⟩

theorem witness_TransfersComeFromDirtyFlushes : flushOffered.Inv ∧
    (∃ t, step flushOffered = .next t ∧ t.phase = .flushing (flushTransfer flushOffered)) ∧
    step (flushingPage [true]) = .next { flushingPage [] with dirty := .clean, phase := .idle, history := [.completed pageTransfer] } :=
  ⟨blank_inv rfl rfl trivial (by decide), ⟨_, rfl, rfl⟩, rfl⟩
theorem witness_SetpixChangesOnePixel : exec (.setpix true 127#7 63#6) blank = .next (idleWith [(1023, 0x80#8)] .full) :=
  next_of (by decide)
theorem witness_SetpixIsOverOrClearOfMask :
    exec (.setpix false 0#7 7#6) (idleWith [(0, 0xFF#8)] .clean) = .next (idleWith [(0, 0x7F#8)] .full) :=
  next_of (by decide)
theorem witness_PaintOffScreenChangesNothing : sext16 64#16 > 63 ∧ sext16 128#16 > 127 ∧
    sext16 (BitVec.ofInt 16 (-4)) + imgWidth blank 0x0110#16 ≤ 0 ∧
    sext16 (BitVec.ofInt 16 (-8)) + imgHeight blank 0x0110#16 ≤ 0 := by decide
theorem witness_PaintFullScreen : sext16 0#16 = 0 ∧ imgWidth blank 0x0400#16 = 128 ∧ imgHeight blank 0x0400#16 = 64 := by
  decide
/-- Page 0 at the left edge and page 7 at the right edge. -/
theorem witness_PaintPageAligned :
    (sext16 0#16 ≤ 63 ∧ sext16 (BitVec.ofInt 16 (-3)) ≤ 127 ∧
      0 < sext16 (BitVec.ofInt 16 (-3)) + imgWidth blank 0x0110#16 ∧ 0 < sext16 0#16 + imgHeight blank 0x0110#16 ∧
      imgHeight blank 0x0110#16 = 8 ∧ sext16 0#16 % 8 = 0) ∧
    (sext16 56#16 ≤ 63 ∧ sext16 127#16 ≤ 127 ∧ 0 < sext16 127#16 + imgWidth blank 0x0110#16 ∧
      0 < sext16 56#16 + imgHeight blank 0x0110#16 ∧ sext16 56#16 % 8 = 0) := by decide
/-- The hypotheses of the misaligned path at one `y`, with its `fr` and `rem`. -/
def Misaligned (x y : BitVec 16) (fr : Int) (rem : Nat) : Prop :=
  sext16 y ≤ 63 ∧ sext16 x ≤ 127 ∧ 0 < sext16 x + imgWidth blank 0x0100#16 ∧ 0 < sext16 y + imgHeight blank 0x0100#16 ∧
  imgHeight blank 0x0100#16 = 8 ∧ sext16 y % 8 ≠ 0 ∧ fr = (if sext16 y < 0 then -1 else sext16 y / 8) ∧
  (rem : Int) = (sext16 y + 8) % 8
/-- The vertical sweep's values: lower page only at -7 and -1, both pages at 1 and 55, upper page only at 57 and 63. -/
theorem witness_PaintMisaligned :
    Misaligned 0#16 (BitVec.ofInt 16 (-7)) (-1) 1 ∧ Misaligned 0#16 (BitVec.ofInt 16 (-1)) (-1) 7 ∧
    Misaligned 0#16 1#16 0 1 ∧ Misaligned 127#16 55#16 6 7 ∧ Misaligned 0#16 57#16 7 1 ∧ Misaligned 127#16 63#16 7 7 := by
  unfold Misaligned; decide
/-- Both pages at `y = 3`, then the lower page alone at `y = -7`. -/
theorem witness_MisalignedDrawBits :
    (sext16 3#16 ≤ 63 ∧ imgHeight blank 0x0100#16 = 8 ∧ sext16 3#16 % 8 ≠ 0 ∧ 0 < sext16 3#16 + 8 ∧
      sext16 127#16 ≤ ((127 : Nat) : Int) ∧ ((127 : Nat) : Int) < sext16 127#16 + imgWidth blank 0x0100#16 ∧
      0 < sext16 3#16 ∧ ((0 : Nat) : Int) = sext16 3#16 / 8 ∧ ((1 : Nat) : Int) = (sext16 3#16 + 8) / 8 ∧
      exec (.draw 0x0100#16 127#16 3#16) blank =
        .next (idleWith [(127, 0x1F#8), (255, 0xE0#8)] (range 0#4 1#4 (by decide)))) ∧
    (sext16 (BitVec.ofInt 16 (-7)) % 8 ≠ 0 ∧ 0 < sext16 (BitVec.ofInt 16 (-7)) + 8 ∧
      ((0 : Nat) : Int) = (sext16 (BitVec.ofInt 16 (-7)) + 8) / 8) :=
  ⟨⟨by decide, by decide, by decide, by decide, by decide, by decide, by decide, by decide, by decide,
    next_of (by decide)⟩, by decide⟩
/-- Height 16 at the edges -15 and 63, height 0 at row 1, height 64 off the origin. -/
theorem witness_PaintUnsupportedSetsUnsup :
    (0 < sext16 (BitVec.ofInt 16 (-15)) + imgHeight blank 0x0130#16 ∧ 0 < sext16 0#16 + imgWidth blank 0x0130#16 ∧
      sext16 63#16 ≤ 63 ∧ imgHeight blank 0x0130#16 ≠ 8 ∧ imgHeight blank 0x0130#16 ≠ 64) ∧
    (0 < sext16 1#16 + imgHeight blank 0x0140#16 ∧ imgHeight blank 0x0140#16 ≠ 8) ∧
    (sext16 0#16 ≤ 63 ∧ sext16 1#16 ≤ 127 ∧ 0 < sext16 1#16 + imgWidth blank 0x0400#16 ∧
      0 < sext16 0#16 + imgHeight blank 0x0400#16 ∧ imgHeight blank 0x0400#16 ≠ 8 ∧
      ¬(sext16 1#16 = 0 ∧ sext16 0#16 = 0 ∧ imgWidth blank 0x0400#16 = 128 ∧ imgHeight blank 0x0400#16 = 64)) := by decide
/-- A byte that the command changes. -/
theorem witness_PaintCompletesAndIsLocal : lands (exec (paintInstr .set 0x0100#16 127#16 63#16) blank)
    (fun t => t.fb.read 1023 != blank.fb.read 1023 && !t.unsup) := by decide
theorem witness_PaintTwiceEqualsOnce : blank.fb.wf 1024 ∧ exec (paintInstr .over 0x0100#16 0#16 3#16) blank =
    .next (idleWith [(0, 0x1F#8), (128, 0xE0#8)] (range 0#4 1#4 (by decide))) := ⟨by decide, next_of (by decide)⟩
theorem witness_ClrimgThenDrawEqualsDraw : (idleWith [(0, 0xFF#8)] .clean).fb.wf 1024 ∧
    exec (.clrimg 0x0100#16 0#16 3#16) (idleWith [(0, 0xFF#8)] .clean) =
      .next (idleWith [(0, 0xE0#8)] (range 0#4 1#4 (by decide))) := ⟨by decide, next_of (by decide)⟩
theorem witness_BlendNeverClearsABit :
    exec (.blend 0x0100#16 0#16 3#16) (idleWith [(0, 0xE0#8)] .clean) =
      .next (idleWith [(0, 0xFF#8), (128, 0xE0#8)] (range 0#4 1#4 (by decide))) ∧
    ((idleWith [(0, 0xE0#8)] .clean).fb.read 0).getLsbD 7 = true := ⟨next_of (by decide), by decide⟩

/-- A state in which every page was sent as the store holds it, the range clean. -/
def synced : State := { blank with history := [.completed zeroTransfer] }

theorem synced_inv : synced.Inv :=
  blank_inv rfl rfl trivial (by
    intro t h
    obtain rfl : t = zeroTransfer := by simpa [synced, State.sent, PortEvent.completed?] using h
    decide +kernel)

theorem synced_conservative : synced.Conservative := by unfold State.Conservative; decide +kernel

theorem witness_StepKeepsInvariant : flushOffered.Inv ∧ step blank = .next blank ∧ blank.Inv :=
  ⟨blank_inv rfl rfl trivial (by decide), next_of (by decide), blank_inv rfl rfl trivial (by decide)⟩
/-- A `MARK` from a clean range whose pages were all sent. -/
theorem witness_StepKeepsRangeConservative : (offered 0x0200000000000007#64 synced).Inv ∧
    (offered 0x0200000000000007#64 synced).Conservative ∧
    step (offered 0x0200000000000007#64 synced) = .next { synced with dirty := range 7#4 7#4 (by decide) } :=
  ⟨⟨synced_inv.fb, synced_inv.imem, trivial, synced_inv.sent⟩, synced_conservative, rfl⟩
theorem witness_CleanRangeMeansStoreWasLastSent : synced.Inv ∧ synced.Conservative ∧
    core.run 1 synced = .next synced ∧ isDirty synced = false := ⟨synced_inv, synced_conservative, rfl, by decide⟩
/-- Two stores that differ, one word on the port of each. -/
theorem witness_HostCannotLearnTheStore :
    SameButStore (offered 0x0300000000000000#64 blank)
      (offered 0x0300000000000000#64 (idleWith [(0, 0x01#8), (1023, 0x80#8)] .clean)) ∧
    ∃ t, step (offered 0x0300000000000000#64 blank) = .next t := ⟨⟨rfl, rfl, rfl, rfl, rfl, rfl, rfl, rfl, rfl, rfl⟩, _, rfl⟩
theorem witness_ImageMemoryNeverChanges : step blank = .next blank := next_of (by decide)
theorem witness_DiagnosticsAreSticky :
    (step (offered 0x1300000000000000#64 { blank with unsup := true }) = .next { blank with unsup := true, ill := true }) ∧
    (step (offered 0x1000000000000130#64 { blank with ill := true }) = .next { blank with unsup := true, ill := true }) ∧
    rstSample blank = false := ⟨next_of (by decide), next_of (by decide), rfl⟩
theorem witness_StoreWriters : lands (step (offered 0x0800000000017F3F#64 blank))
    (fun t => t.fb.read 1023 != blank.fb.read 1023) := by decide
/-- The value 0, with no digits, and the largest value, with ten. -/
theorem witness_DrawnumrExpansion : (0 ≤ 4294967295 ∧ 0 < 10 ^ 0) ∧
    (4294967295 ≤ 4294967295 ∧ 4294967295 < 10 ^ 10 ∧ 10 ^ (10 - 1) ≤ 4294967295) := by decide
theorem witness_DrawnumlExpansion : (1 ≤ 1 ∧ 0 < 10 ^ 1) ∧
    (1 ≤ 10 ∧ 4294967295 < 10 ^ 10 ∧ 10 ^ (10 - 1) ≤ 4294967295) := by decide
theorem witness_AssemblerKeepsOperands : (Line.mark 8).wellFormed = false ∧
    assemble (.setpix 1 127 63) testDigits = some [.setpix true 127#7 63#6] ∧
    assemble (.draw 65535 32767 (-32768)) testDigits = some [.draw 0xFFFF#16 0x7FFF#16 0x8000#16] := by decide
theorem witness_AliasesMeanTheirMnemonics : Mnemonic.clrimg.sourceName = some "clear_image" ∧
    Mnemonic.flush.sourceName = some "flush" := by decide
theorem witness_BeatsCarryTheTransfer : (transferBeats ⟨3#3, 3#3, [0x11#8, 0x22#8]⟩)[1]? = some ⟨3#3, 3#3, 0x22#8, true⟩ := by
  decide

end Sys2Proof.Tests
end

section
/-! PROOFS. Scope: one equation for each kind of step, and what a step makes of two states that differ in the page store
only. -/

namespace Sys2Proof.Machine

/-! ## One equation for each kind of step, the converse of `step_cases` -/

/-- R221: with `rst` at 1 the engine is reset. -/
theorem step_of_rst {s : State} (hr : rstSample s = true) : step s = .next (resetEngine (takeRstSample s)) :=
  if_pos hr

/-- R29: a flush in flight takes the step. -/
theorem step_of_flushing {s : State} {a : Transfer} (hr : rstSample s = false) (hp : s.phase = .flushing a) :
    step s = .next (flushStep a (takeRstSample s)) := by
  simp [step, advance, hr, hp]

/-- In `IDLE` with `rst` at 0 the command port is served (R70). -/
theorem step_of_idle {s : State} (hr : rstSample s = false) (hp : s.phase = .idle) :
    step s = portStep (takeRstSample s) := by
  simp [step, advance, hr, hp]

/-- R70: with no word on the port nothing happens. -/
theorem step_of_noWord {s : State} (hr : rstSample s = false) (hp : s.phase = .idle) (hh : s.host = []) :
    step s = .next (takeRstSample s) := by
  simp [step_of_idle hr hp, portStep, hh]

/-- R70: the word on the port is taken. -/
theorem step_of_word {s : State} {cw : CmdWord} {rest : List CmdWord} (hr : rstSample s = false)
    (hp : s.phase = .idle) (hh : s.host = cw :: rest) :
    step s = acceptWord cw (takeHostWord (takeRstSample s)) := by
  simp [step_of_idle hr hp, portStep, hh]

/-- R77: a word that spells a command is executed. -/
theorem acceptWord_of_ok {cw : CmdWord} {i : Instr} (hd : decode cw = .ok i) (s : State) :
    acceptWord cw s = exec i s := by
  simp [acceptWord, hd]

/-- R86: an illegal word raises `Illegal`. -/
theorem acceptWord_of_error {cw : CmdWord} {e : Illegal} (hd : decode cw = .error e) (s : State) :
    acceptWord cw s = .next (raise .illegal s) := by
  simp [acceptWord, hd]

/-- Taking the word and the sample of `rst`, as one update of the state. -/
theorem takeHostWord_takeRstSample {s : State} {cw : CmdWord} {rest : List CmdWord} (hh : s.host = cw :: rest) :
    takeHostWord (takeRstSample s) = { s with host := rest, rst := s.rst.tail } := by
  simp [takeHostWord, takeRstSample, hh]

/-- Settles O7: the step takes the word, and a word that spells a command is executed. -/
theorem stepRunsDecodedCommand : Obligations.StepRunsDecodedCommand := by
  intro s cw rest i hr hp hh hd
  rw [step_of_word hr hp hh, acceptWord_of_ok hd, takeHostWord_takeRstSample hh]

/-! ## What does not depend on the store -/

/-- `BUSY` depends on the pages in flight only. -/
theorem isBusy_eq_isSome_pages (s : State) : isBusy s = s.phase.pages.isSome := by
  cases h : s.phase <;> simp [isBusy, h, Phase.pages]

/-- What a reset leaves of the port's history, without the bytes: the transfer in flight joins it as cut (R222). -/
theorem cutFlush_pages (s : State) : (cutFlush s).map PortEvent.pages =
    s.history.map PortEvent.pages ++ (s.phase.pages.map (Prod.mk false)).toList := by
  cases h : s.phase <;> simp [cutFlush, h, Phase.pages, PortEvent.pages]

section
variable {s t : State}

namespace SameButStore

theorem rstSample_eq (h : SameButStore s t) : rstSample s = rstSample t := congrArg (List.headD · false) h.rst

theorem sinkAnswer_eq (h : SameButStore s t) : sinkAnswer s = sinkAnswer t := by
  simp only [sinkAnswer, h.sink, h.waits]

theorem isBusy_eq (h : SameButStore s t) : isBusy s = isBusy t := by
  rw [isBusy_eq_isSome_pages, isBusy_eq_isSome_pages, h.phase]

theorem cmdReady_eq (h : SameButStore s t) : cmdReady s = cmdReady t := congrArg Bool.not h.isBusy_eq

/-- `STATUS` reads the diagnostics, the dirty range and `BUSY` (R30). -/
theorem status_eq (h : SameButStore s t) : status s = status t := by
  simp only [status, isDirty, h.ill, h.unsup, h.dirty, h.isBusy_eq]

theorem phase_idle (h : SameButStore s t) (hp : s.phase = .idle) : t.phase = .idle := by
  have ht := h.phase
  rw [hp] at ht
  cases hq : t.phase with
  | idle => rfl
  | flushing b => simp [hq, Phase.pages] at ht

theorem phase_flushing (h : SameButStore s t) {a : Transfer} (hp : s.phase = .flushing a) :
    ∃ b, t.phase = .flushing b ∧ a.first = b.first ∧ a.last = b.last := by
  have ht := h.phase
  rw [hp] at ht
  cases hq : t.phase with
  | idle => simp [hq, Phase.pages] at ht
  | flushing b => exact ⟨b, rfl, by simpa [hq, Phase.pages] using ht⟩

end SameButStore

/-! ## The shared operations keep two states the same but for the store -/

/-- Whatever is written to the two stores. -/
theorem updateStore_sameButStore (h : SameButStore s t) (base first count base' first' count' : Nat)
    (g g' : Nat → Byte → Byte) :
    SameButStore (updateStore base first count g s) (updateStore base' first' count' g' t) := { h with }

/-- Whatever is written to the two stores. -/
theorem writeStore_sameButStore (h : SameButStore s t) (a a' : Nat) (v v' : Byte) :
    SameButStore (writeStore a v s) (writeStore a' v' t) := { h with }

theorem markDirty_sameButStore (h : SameButStore s t) (p : Fin 8) :
    SameButStore (markDirty p s) (markDirty p t) :=
  { h with dirty := congrArg (DirtyRange.mark · p) h.dirty }

theorem invalidate_sameButStore (h : SameButStore s t) : SameButStore (invalidate s) (invalidate t) :=
  { h with dirty := rfl }

theorem raise_sameButStore (h : SameButStore s t) (d : Diagnostic) : SameButStore (raise d s) (raise d t) := by
  cases d with
  | unsupported => exact { h with unsup := rfl }
  | illegal => exact { h with ill := rfl }

theorem takeRstSample_sameButStore (h : SameButStore s t) : SameButStore (takeRstSample s) (takeRstSample t) :=
  { h with rst := congrArg List.tail h.rst }

theorem takeHostWord_sameButStore (h : SameButStore s t) : SameButStore (takeHostWord s) (takeHostWord t) :=
  { h with host := congrArg List.tail h.host }

theorem takeSinkAnswer_sameButStore (h : SameButStore s t) : SameButStore (takeSinkAnswer s) (takeSinkAnswer t) := by
  unfold takeSinkAnswer
  rw [h.sink]
  split
  · exact { h with sink := rfl }
  · exact { h with sink := rfl, waits := congrArg (· + 1) h.waits }

/-- The pages handed over are those of the dirty range (R116). -/
theorem startFlush_sameButStore (h : SameButStore s t) : SameButStore (startFlush s) (startFlush t) :=
  { h with phase := by simp [Phase.pages, flushTransfer, h.dirty] }

theorem completeFlush_sameButStore (h : SameButStore s t) {a b : Transfer} (hf : a.first = b.first)
    (hl : a.last = b.last) : SameButStore (completeFlush a s) (completeFlush b t) :=
  { h with dirty := rfl, phase := rfl, history := by simp [PortEvent.pages, h.history, hf, hl] }

theorem flushStep_sameButStore (h : SameButStore s t) {a b : Transfer} (hf : a.first = b.first)
    (hl : a.last = b.last) : SameButStore (flushStep a s) (flushStep b t) := by
  unfold flushStep
  rw [h.sinkAnswer_eq]
  split
  · exact completeFlush_sameButStore (takeSinkAnswer_sameButStore h) hf hl
  · exact takeSinkAnswer_sameButStore h

theorem resetEngine_sameButStore (h : SameButStore s t) : SameButStore (resetEngine s) (resetEngine t) :=
  { h with
    dirty := rfl, unsup := rfl, ill := rfl, phase := rfl
    history := by simp only [resetEngine_history, cutFlush_pages, h.history, h.phase] }

theorem paintPageAt_sameButStore (h : SameButStore s t) (o : Operator) (f : Byte → Byte) (img : ImgAddr) (x n : Int) :
    SameButStore (paintPageAt o f img x n s) (paintPageAt o f img x n t) := by
  unfold paintPageAt
  split
  · exact markDirty_sameButStore (updateStore_sameButStore h ..) _
  · exact h

/-- The path of a paint is chosen by its operands and the image memory (R132, R133). -/
theorem paint_sameButStore (h : SameButStore s t) (o : Operator) (img : ImgAddr) (x y : Int) :
    SameButStore (paint o img x y s) (paint o img x y t) := by
  simp only [paint, imgWidth_congr h.imem, imgHeight_congr h.imem]
  split_ifs
  · exact h
  · exact invalidate_sameButStore (updateStore_sameButStore h ..)
  · exact paintPageAt_sameButStore h ..
  · exact paintPageAt_sameButStore (paintPageAt_sameButStore h ..) ..
  · exact raise_sameButStore h _

/-! ## Commands and steps -/

/-- Whether `FLUSH` starts a transfer is read off the dirty range (R115). -/
theorem execFlush_sameButStore (h : SameButStore s t) :
    ∃ s' t', execFlush s = .next s' ∧ execFlush t = .next t' ∧ SameButStore s' t' := by
  refine ⟨_, _, rfl, rfl, ?_⟩
  rw [h.dirty]
  split
  · exact h
  · exact startFlush_sameButStore h

theorem exec_sameButStore (h : SameButStore s t) (i : Instr) :
    ∃ s' t', exec i s = .next s' ∧ exec i t = .next t' ∧ SameButStore s' t' := by
  cases i with
  | inval => exact ⟨_, _, rfl, rfl, invalidate_sameButStore h⟩
  | mark page => exact ⟨_, _, rfl, rfl, markDirty_sameButStore h _⟩
  | clear => exact ⟨_, _, rfl, rfl, invalidate_sameButStore (updateStore_sameButStore h ..)⟩
  | flush => exact execFlush_sameButStore h
  | setpix on px py => exact ⟨_, _, rfl, rfl, invalidate_sameButStore (writeStore_sameButStore h ..)⟩
  | draw img x y => exact ⟨_, _, rfl, rfl, paint_sameButStore h ..⟩
  | clrimg img x y => exact ⟨_, _, rfl, rfl, paint_sameButStore h ..⟩
  | blend img x y => exact ⟨_, _, rfl, rfl, paint_sameButStore h ..⟩

/-- Two states that differ in the store only take the same kind of step, to two such states. -/
theorem step_sameButStore (h : SameButStore s t) :
    ∃ s' t', step s = .next s' ∧ step t = .next t' ∧ SameButStore s' t' := by
  have hrst := takeRstSample_sameButStore h
  have hword := takeHostWord_sameButStore hrst
  rcases step_cases s with ⟨hr, hs⟩ | ⟨hr, ⟨a, hp, hs⟩ | ⟨hp, hport⟩⟩ <;> rw [h.rstSample_eq] at hr
  · exact ⟨_, _, hs, step_of_rst hr, resetEngine_sameButStore hrst⟩
  · obtain ⟨b, hq, hf, hl⟩ := h.phase_flushing hp
    exact ⟨_, _, hs, step_of_flushing hr hq, flushStep_sameButStore hrst hf hl⟩
  · have hq := h.phase_idle hp
    rcases hport with ⟨hh, hs⟩ | ⟨cw, rest, i, hh, hd, hs⟩ | ⟨cw, rest, e, hh, hd, hs⟩ <;> rw [h.host] at hh
    · exact ⟨_, _, hs, step_of_noWord hr hq hh, hrst⟩
    · rw [hs, step_of_word hr hq hh, acceptWord_of_ok hd]
      exact exec_sameButStore hword i
    · rw [hs, step_of_word hr hq hh, acceptWord_of_error hd]
      exact ⟨_, _, rfl, rfl, raise_sameButStore hword _⟩

end

/-- Settles O48: a step keeps `SameButStore`, and `STATUS` and `cmd_ready` of such states agree. -/
theorem hostCannotLearnTheStore : Obligations.HostCannotLearnTheStore := by
  intro s s' t h hs
  obtain ⟨u, t', hu, ht, hsame⟩ := step_sameButStore h
  obtain rfl : s' = u := Host.Outcome.next.inj (hs.symm.trans hu)
  exact ⟨t', ht, hsame, hsame.status_eq, hsame.cmdReady_eq⟩

end Sys2Proof.Machine
end

section
/-! PROOFS. Scope: everything a step can do, said of the store, the dirty range and the port; the invariant, the
meaning of the dirty range (R26), the host's words and reset follow from it. -/

namespace Sys2Proof.Machine

/-! ## Bounds -/

/-- The byte of a pixel lies in the store (R41). -/
theorem pixelIndex_lt (px : BitVec 7) (py : BitVec 6) : pixelIndex px py < 1024 := by
  have := px.isLt
  have := py.isLt
  unfold pixelIndex
  omega

/-- The clean range has no page of the display in it. -/
theorem DirtyRange.not_covers_clean {p : Nat} (hp : p < 8) : ¬ DirtyRange.clean.covers p := by
  simp only [covers, clean_fd, clean_ld, BitVec.toNat_ofNat]
  omega

/-! ## Marked updates: what every command but the start of a flush makes of the state -/

/-- `t` differs from `s` in no field of the port, of the image memory or of the phase; its range has every page the
range of `s` has; and every byte of the store that differs lies on a page of its range. -/
structure MarkedUpdate (s t : State) : Prop where
  phase : t.phase = s.phase
  imem : t.imem = s.imem
  history : t.history = s.history
  wf : s.fb.wf 1024 → t.fb.wf 1024
  grows : ∀ p < 8, s.dirty.covers p → t.dirty.covers p
  marked : ∀ a, t.fb.read a ≠ s.fb.read a → a < 1024 ∧ t.dirty.covers (a / 128)

section
variable {s t u : State}

namespace MarkedUpdate

/-- Nothing of the store, the range, the phase, the image memory and the history changes. -/
theorem of_eq (hf : t.fb = s.fb) (hd : t.dirty = s.dirty) (hp : t.phase = s.phase) (hi : t.imem = s.imem)
    (hh : t.history = s.history) : MarkedUpdate s t where
  phase := hp
  imem := hi
  history := hh
  wf h := hf ▸ h
  grows _ _ h := hd ▸ h
  marked _ h := absurd (by rw [hf]) h

theorem refl (s : State) : MarkedUpdate s s := of_eq rfl rfl rfl rfl rfl

/-- A byte the first update changed stays marked, because the second one takes no page out of the range. -/
theorem trans (h : MarkedUpdate s t) (h' : MarkedUpdate t u) : MarkedUpdate s u where
  phase := h'.phase.trans h.phase
  imem := h'.imem.trans h.imem
  history := h'.history.trans h.history
  wf := h'.wf ∘ h.wf
  grows p hp := h'.grows p hp ∘ h.grows p hp
  marked a ha := by
    by_cases hu : u.fb.read a = t.fb.read a
    · obtain ⟨hlt, hcov⟩ := h.marked a (hu ▸ ha)
      exact ⟨hlt, h'.grows _ (by omega) hcov⟩
    · exact h'.marked a hu

/-- A page outside the range afterwards has kept its bytes. -/
theorem pageBytes_eq (h : MarkedUpdate s t) {p : Nat} (hp : ¬ t.dirty.covers p) :
    pageBytes t.fb p p = pageBytes s.fb p p := by
  refine pageBytes_congr fun a hlo hhi => by_contra fun hne => hp ?_
  obtain rfl : a / 128 = p := by omega
  exact (h.marked a hne).2

end MarkedUpdate

/-! ### The shared operations -/

theorem takeRstSample_markedUpdate (s : State) : MarkedUpdate s (takeRstSample s) := .of_eq rfl rfl rfl rfl rfl

theorem takeHostWord_markedUpdate (s : State) : MarkedUpdate s (takeHostWord s) := .of_eq rfl rfl rfl rfl rfl

theorem raise_markedUpdate (d : Diagnostic) (s : State) : MarkedUpdate s (raise d s) := by
  cases d <;> exact .of_eq rfl rfl rfl rfl rfl

theorem markDirty_markedUpdate (p : Fin 8) (s : State) : MarkedUpdate s (markDirty p s) :=
  { MarkedUpdate.refl s with
    grows := fun _ hq h => DirtyRange.covers_mark (.inl ⟨h, hq⟩)
    marked := fun _ h => absurd rfl h }

/-- With every page marked, any bytes of the store may have been rewritten. -/
theorem invalidate_markedUpdate {fb : Memory} (hwf : s.fb.wf 1024 → fb.wf 1024)
    (hout : ∀ a, 1024 ≤ a → fb.read a = s.fb.read a) : MarkedUpdate s (invalidate { s with fb := fb }) where
  phase := rfl
  imem := rfl
  history := rfl
  wf := hwf
  grows _ hp _ := DirtyRange.covers_full hp
  marked a ha := by
    have hlt : a < 1024 := Nat.lt_of_not_le fun h => ha (hout a h)
    exact ⟨hlt, DirtyRange.covers_full (by omega)⟩

/-- `CLEAR` and the full-screen path: the loop over the whole store, then every page marked (R112, R134). -/
theorem invalidate_updateStore_markedUpdate (g : Nat → Byte → Byte) (s : State) :
    MarkedUpdate s (invalidate (updateStore 0 0 Config.fbBytes g s)) :=
  invalidate_markedUpdate (Memory.wf_wholeStore · g) fun a ha => by
    rw [Memory.read_wholeStore, if_neg (by omega)]

/-- The columns painted lie on the page that is then marked (R135, R138). -/
theorem paintPage_markedUpdate (o : Operator) (f : Byte → Byte) (img : ImgAddr) {x : Int} (hx : x ≤ 127) (p : Fin 8)
    (s : State) : MarkedUpdate s (paintPage o f img x p s) where
  phase := rfl
  imem := rfl
  history := rfl
  wf h := paintPage_wf h o f img hx p
  grows _ hq h := DirtyRange.covers_mark (.inl ⟨h, hq⟩)
  marked a ha := by
    rw [paintPage_read] at ha
    have hcol := of_not_not fun h => ha (if_neg h)
    have hend : clipEnd x (imgWidth s img) ≤ 128 := by unfold clipEnd; omega
    have := p.isLt
    exact ⟨by omega, DirtyRange.covers_mark (.inr (by omega))⟩

theorem paintPageAt_markedUpdate (o : Operator) (f : Byte → Byte) (img : ImgAddr) {x : Int} (hx : x ≤ 127) (n : Int)
    (s : State) : MarkedUpdate s (paintPageAt o f img x n s) := by
  by_cases hn : 0 ≤ n ∧ n ≤ 7
  · rw [paintPageAt_on hn]
    exact paintPage_markedUpdate o f img hx _ s
  · rw [paintPageAt_off hn]
    exact .refl s

/-- Each of the five outcomes of `Paint` marks what it writes. -/
theorem paint_markedUpdate (o : Operator) (img : ImgAddr) (x y : Int) (s : State) :
    MarkedUpdate s (paint o img x y s) := by
  rcases paint_cases o img x y s with ⟨-, e⟩ | ⟨hs, ⟨-, e⟩ | ⟨-, e⟩ | ⟨-, e⟩ | ⟨-, e⟩⟩ <;> rw [e]
  · exact .refl s
  · exact invalidate_updateStore_markedUpdate _ s
  · exact paintPageAt_markedUpdate o id img (offScreen_eq_false.mp hs).2.1 _ s
  · have hx := (offScreen_eq_false.mp hs).2.1
    exact (paintPageAt_markedUpdate o _ img hx _ s).trans (paintPageAt_markedUpdate o _ img hx _ _)
  · exact raise_markedUpdate .unsupported s

/-! ### Commands -/

/-- `FLUSH` starts a transfer when the range is dirty (R115, R116); whatever else a command does, it marks what it
writes. -/
theorem exec_cases {i : Instr} (h : exec i s = .next t) :
    MarkedUpdate s t ∨ (i = .flush ∧ s.dirty.isClean = false ∧ t = startFlush s) := by
  cases i <;> obtain rfl := Host.Outcome.next.inj h
  case inval => exact .inl (invalidate_markedUpdate id fun _ _ => rfl)
  case mark page => exact .inl (markDirty_markedUpdate _ s)
  case clear => exact .inl (invalidate_updateStore_markedUpdate _ s)
  case flush =>
    cases hc : s.dirty.isClean with
    | true => exact .inl (.refl s)
    | false => exact .inr ⟨rfl, rfl, rfl⟩
  case setpix on px py =>
    have hi := pixelIndex_lt px py
    refine .inl (invalidate_markedUpdate (Memory.wf_write · hi _) fun a ha => ?_)
    rw [Memory.read_write, if_neg (by omega)]
  case draw img x y => exact .inl (paint_markedUpdate ..)
  case clrimg img x y => exact .inl (paint_markedUpdate ..)
  case blend img x y => exact .inl (paint_markedUpdate ..)

theorem exec_host {i : Instr} (h : exec i s = .next t) : t.host = s.host := by
  cases i <;> obtain rfl := Host.Outcome.next.inj h
  case flush => split <;> rfl
  case draw img x y => exact (paint_frame ..).host
  case clrimg img x y => exact (paint_frame ..).host
  case blend img x y => exact (paint_frame ..).host
  all_goals rfl

/-- The commands that write the store (R23). -/
def WritesStore (i : Instr) : Prop :=
  i = .clear ∨ (∃ on px py, i = .setpix on px py) ∨ ∃ o img x y, i = paintInstr o img x y

theorem writesStore_of_exec {i : Instr} (h : exec i s = .next t) (hne : t.fb ≠ s.fb) : WritesStore i := by
  cases i with
  | clear => exact .inl rfl
  | setpix on px py => exact .inr (.inl ⟨on, px, py, rfl⟩)
  | draw img x y => exact .inr (.inr ⟨.set, img, x, y, rfl⟩)
  | clrimg img x y => exact .inr (.inr ⟨.clear, img, x, y, rfl⟩)
  | blend img x y => exact .inr (.inr ⟨.over, img, x, y, rfl⟩)
  | inval =>
    obtain rfl := Host.Outcome.next.inj h
    exact absurd rfl hne
  | mark page =>
    obtain rfl := Host.Outcome.next.inj h
    exact absurd rfl hne
  | flush =>
    obtain rfl := Host.Outcome.next.inj h
    refine absurd ?_ hne
    split <;> rfl

/-! ## Steps -/

/-- What one step from `s` to `t` does to the store, the range, the phase and the port. -/
inductive StepEffect (s t : State) : Prop where
  /-- R221, R222: reset. -/
  | reset (hr : rstSample s = true) (ht : t = resetEngine (takeRstSample s))
  /-- R184: the sink does not complete the transfer in flight. -/
  | waiting (hr : rstSample s = false) (tr : Transfer) (hp : s.phase = .flushing tr) (ha : sinkAnswer s = false)
    (ht : t = takeSinkAnswer (takeRstSample s))
  /-- R183: the sink completes it. -/
  | completion (tr : Transfer) (hc : Completes s tr) (ht : t = completeFlush tr (takeSinkAnswer (takeRstSample s)))
  /-- R116: a dirty `FLUSH` is taken. -/
  | flushStart (htake : Takes s .flush) (hd : s.dirty.isClean = false)
    (ht : t = startFlush (takeHostWord (takeRstSample s)))
  /-- Any other command, an illegal word, or no word. -/
  | service (hr : rstSample s = false) (hp : s.phase = .idle) (hm : MarkedUpdate s t)

theorem step_completes {tr : Transfer} (h : Completes s tr) :
    step s = .next (completeFlush tr (takeSinkAnswer (takeRstSample s))) := by
  obtain ⟨hr, hp, ha⟩ := h
  rw [step_of_flushing hr hp, flushStep, if_pos (by simpa using ha)]

theorem step_effect (h : step s = .next t) : StepEffect s t := by
  rcases step_cases s with ⟨hr, hs⟩ | ⟨hr, ⟨tr, hp, hs⟩ | ⟨hp, ⟨-, hs⟩ | ⟨cw, rest, i, hh, hd, hs⟩ |
    ⟨cw, rest, e, -, -, hs⟩⟩⟩ <;> rw [hs] at h
  · exact .reset hr (Host.Outcome.next.inj h).symm
  · obtain rfl := Host.Outcome.next.inj h
    rcases flushStep_cases tr (takeRstSample s) with ⟨ha, ht⟩ | ⟨ha, ht⟩
    · exact .completion tr ⟨hr, hp, ha⟩ ht
    · exact .waiting hr tr hp ha ht
  · obtain rfl := Host.Outcome.next.inj h
    exact .service hr hp (takeRstSample_markedUpdate s)
  · rcases exec_cases h with hm | ⟨rfl, hc, ht⟩
    · exact .service hr hp (((takeRstSample_markedUpdate s).trans (takeHostWord_markedUpdate _)).trans hm)
    · exact .flushStart ⟨hr, hp, cw, rest, hh, hd⟩ hc ht
  · obtain rfl := Host.Outcome.next.inj h
    exact .service hr hp
      (((takeRstSample_markedUpdate s).trans (takeHostWord_markedUpdate _)).trans (raise_markedUpdate .illegal _))

theorem flushStep_fb (tr : Transfer) (s : State) : (flushStep tr s).fb = s.fb := by
  rcases flushStep_cases tr s with ⟨-, h⟩ | ⟨-, h⟩ <;> simp [h]

theorem flushStep_host (tr : Transfer) (s : State) : (flushStep tr s).host = s.host := by
  rcases flushStep_cases tr s with ⟨-, h⟩ | ⟨-, h⟩ <;> simp [h]

/-- Outside reset only a command that writes the store changes it (R23). -/
theorem takes_writer_of_step (h : step s = .next t) (hr : rstSample s = false) (hne : t.fb ≠ s.fb) :
    ∃ i, Takes s i ∧ WritesStore i := by
  rcases step_cases s with ⟨hr', -⟩ | ⟨-, ⟨tr, hp, hs⟩ | ⟨hp, ⟨-, hs⟩ | ⟨cw, rest, i, hh, hd, hs⟩ |
    ⟨cw, rest, e, -, -, hs⟩⟩⟩
  · simp [hr] at hr'
  all_goals rw [hs] at h
  · obtain rfl := Host.Outcome.next.inj h
    exact absurd (flushStep_fb ..) hne
  · obtain rfl := Host.Outcome.next.inj h
    exact absurd rfl hne
  · exact ⟨i, ⟨hr, hp, cw, rest, hh, hd⟩, writesStore_of_exec h hne⟩
  · obtain rfl := Host.Outcome.next.inj h
    exact absurd rfl hne

/-! ## The invariant -/

theorem State.inFlight_of_idle (h : s.phase = .idle) : s.inFlight := by
  simp only [inFlight, h]

theorem State.inFlight_iff_of_flushing {tr : Transfer} (h : s.phase = .flushing tr) :
    s.inFlight ↔ tr.wf ∧ tr.first.toNat = s.dirty.fd.toNat ∧ tr.last.toNat = s.dirty.ld.toNat ∧
      tr.bytes = pageBytes s.fb tr.first.toNat tr.last.toNat := by
  simp only [inFlight, h]

/-- R116, R181: the transfer a dirty `FLUSH` hands over names the range and carries the bytes of its pages. -/
theorem startFlush_inFlight (hd : s.dirty.isClean = false) : (startFlush s).inFlight := by
  obtain ⟨hle, hl⟩ := DirtyRange.not_clean_le hd
  have hf : (flushTransfer s).first.toNat = s.dirty.fd.toNat := by
    simp only [flushTransfer, BitVec.toNat_ofNat]; omega
  have hl : (flushTransfer s).last.toNat = s.dirty.ld.toNat := by
    simp only [flushTransfer, BitVec.toNat_ofNat]; omega
  have hb : (flushTransfer s).bytes = pageBytes s.fb s.dirty.fd.toNat s.dirty.ld.toNat := rfl
  rw [State.inFlight_iff_of_flushing (startFlush_phase s), Transfer.wf, hb, hf, hl, pageBytes_length]
  exact ⟨⟨hle, by omega⟩, rfl, rfl, rfl⟩

/-- While a flush waits nothing of it changes. -/
theorem State.inFlight_congr (hp : t.phase = s.phase) (hd : t.dirty = s.dirty) (hf : t.fb = s.fb) (h : s.inFlight) :
    t.inFlight := by
  simpa only [inFlight, hp, hd, hf] using h

theorem inv_of_step (hi : s.Inv) (h : step s = .next t) : t.Inv := by
  obtain ⟨hfb, himem, hfly, hsent⟩ := hi
  cases step_effect h with
  | reset hr ht =>
    subst ht
    exact ⟨splashStore_wf, himem, State.inFlight_of_idle rfl, by simpa using hsent⟩
  | waiting hr tr hp ha ht =>
    subst ht
    exact ⟨by simpa using hfb, by simpa using himem,
      State.inFlight_congr (s := s) (by simp) (by simp) (by simp) hfly, by simpa using hsent⟩
  | completion tr hc ht =>
    subst ht
    obtain ⟨-, hp, -⟩ := hc
    obtain ⟨hwf, -⟩ := (State.inFlight_iff_of_flushing hp).mp hfly
    refine ⟨by simpa using hfb, by simpa using himem, State.inFlight_of_idle rfl, fun t' ht' => ?_⟩
    simp only [completeFlush_sent, takeSinkAnswer_sent, takeRstSample_sent, List.mem_append, List.mem_singleton] at ht'
    rcases ht' with ht' | rfl
    · exact hsent t' ht'
    · exact hwf
  | flushStart htake hd ht =>
    subst ht
    exact ⟨hfb, himem, startFlush_inFlight hd, hsent⟩
  | service hr hp hm =>
    exact ⟨hm.wf hfb, hm.imem ▸ himem, State.inFlight_of_idle (hm.phase.trans hp), State.sent_congr hm.history ▸ hsent⟩

/-! ## The dirty range and `SHADOW` (R26) -/

/-- A full range promises nothing. -/
theorem conservative_of_full (h : s.dirty = .full) : s.Conservative := fun _ hp hc =>
  absurd (h ▸ DirtyRange.covers_full hp) hc

theorem conservative_congr (hh : t.history = s.history) (hd : t.dirty = s.dirty) (hf : t.fb = s.fb)
    (h : s.Conservative) : t.Conservative := by
  simpa only [State.Conservative, hh, hd, hf] using h

theorem MarkedUpdate.conservative (hm : MarkedUpdate s t) (h : s.Conservative) : t.Conservative := by
  intro p hp hc
  rw [hm.history, hm.pageBytes_eq hc]
  exact h p hp fun hs => hc (hm.grows p hp hs)

/-- R183: `SHADOW` after a completion. -/
theorem shadowPage_completed (history : List PortEvent) (tr : Transfer) (p : Nat) :
    shadowPage (history ++ [.completed tr]) p =
      if tr.first.toNat ≤ p ∧ p ≤ tr.last.toNat then some ((tr.bytes.drop ((p - tr.first.toNat) * 128)).take 128)
      else shadowPage history p := by
  rw [shadowPage_append, PortEvent.shadow, Transfer.page]
  split <;> rfl

/-- A completed flush has sent the pages of the range as the store holds them, so that every page is sent. -/
theorem completeFlush_conservative {tr : Transfer} (hfly : s.inFlight) (hp : s.phase = .flushing tr)
    (h : s.Conservative) : (completeFlush tr s).Conservative := by
  intro p hp8 _
  obtain ⟨-, hfirst, hlast, hbytes⟩ := (State.inFlight_iff_of_flushing hp).mp hfly
  rw [completeFlush_history, completeFlush_fb, shadowPage_completed]
  split
  next hin => rw [hbytes, pageBytes_slice s.fb hin.1 hin.2]
  next hout => exact h p hp8 (by rwa [DirtyRange.covers, ← hfirst, ← hlast])

theorem conservative_of_step (hi : s.Inv) (hc : s.Conservative) (h : step s = .next t) : t.Conservative := by
  cases step_effect h with
  | reset hr ht => exact conservative_of_full (by simp [ht])
  | waiting hr tr hp ha ht => exact conservative_congr (by simp [ht]) (by simp [ht]) (by simp [ht]) hc
  | completion tr hcomp ht =>
    obtain ⟨-, hp, -⟩ := hcomp
    rw [ht]
    exact completeFlush_conservative (State.inFlight_congr (s := s) (by simp) (by simp) (by simp) hi.inFlight)
      (by simpa using hp) (conservative_congr (by simp) (by simp) (by simp) hc)
  | flushStart htake hd ht => exact conservative_congr (by simp [ht]) (by simp [ht]) (by simp [ht]) hc
  | service hr hp hm => exact hm.conservative hc

/-- A run of `n + 1` steps is a step and then a run of `n`. -/
theorem step_of_run_succ {n : Nat} (h : core.run (n + 1) s = .next t) :
    ∃ u, step s = .next u ∧ core.run n u = .next t := by
  simp only [Host.Core.run] at h
  split at h
  next u hu => exact ⟨u, hu, h⟩
  next => cases h
  next => cases h

/-- What every step keeps holds after every run. -/
theorem run_keeps {P : State → Prop} (hstep : ∀ s t, P s → step s = .next t → P t) {n : Nat}
    (hs : P s) (h : core.run n s = .next t) : P t := by
  induction n generalizing s with
  | zero =>
    obtain rfl : s = t := Host.Outcome.next.inj h
    exact hs
  | succ n ih =>
    obtain ⟨u, hu, hrun⟩ := step_of_run_succ h
    exact ih (hstep s u hs hu) hrun

/-- The port's history moves only when a transfer completes or is cut. -/
theorem step_history_of_no_event (h : step s = .next t) (hc : ∀ tr, ¬ Completes s tr)
    (hcut : rstSample s = false ∨ s.phase = .idle) : t.history = s.history := by
  cases step_effect h with
  | reset hr ht =>
    have hp : s.phase = .idle := hcut.resolve_left (by simp [hr])
    rw [ht, resetEngine_history, cutFlush_takeRstSample, cutFlush_idle hp]
  | waiting hr tr hp ha ht => simp [ht]
  | completion tr hcomp ht => exact absurd hcomp (hc tr)
  | flushStart htake hd ht => simp [ht]
  | service hr hp hm => exact hm.history

/-! ## Reset, readiness, `STATUS` -/

theorem cmdReady_iff : cmdReady s = true ↔ s.phase = .idle := by
  cases h : s.phase <;> simp [cmdReady, isBusy, h]

/-- The fields of R30 put together, bit by bit. -/
theorem getLsbD_statusFields (ill unsup busy dirty : Bool) (ld fd : BitVec 4) (i : Nat) :
    (0#4 ++ BitVec.ofBool ill ++ BitVec.ofBool unsup ++ BitVec.ofBool busy ++ BitVec.ofBool dirty ++ ld ++ fd).getLsbD i =
      if i < 4 then fd.getLsbD i else if i < 8 then ld.getLsbD (i - 4) else if i = 8 then dirty
      else if i = 9 then busy else if i = 10 then unsup else if i = 11 then ill else false := by
  simp only [BitVec.getLsbD_append, BitVec.getLsbD_ofBool]
  by_cases h : i < 12
  · interval_cases i <;> simp
  · repeat rw [if_neg (by omega)]
    simp

/-- R30: where each field of `STATUS` stands. -/
theorem status_getLsbD (s : State) (i : Nat) : (status s).getLsbD i =
    if i < 4 then s.dirty.fd.getLsbD i else if i < 8 then s.dirty.ld.getLsbD (i - 4) else if i = 8 then isDirty s
    else if i = 9 then isBusy s else if i = 10 then s.unsup else if i = 11 then s.ill else false :=
  getLsbD_statusFields ..

theorem isBusy_iff {s : State} : isBusy s = true ↔ ∃ tr, s.phase = .flushing tr := by
  cases h : s.phase <;> simp [isBusy, h]

theorem isDirty_iff {s : State} : isDirty s = true ↔ s.dirty.fd.toNat ≤ 7 := by
  simp [isDirty, DirtyRange.isClean]

end

/-! ## The obligations -/

/-- Settles O42: by the kinds of step; the sequence of transfers grows only by the one in flight, which is of whole
pages. -/
theorem stepKeepsInvariant : Obligations.StepKeepsInvariant := fun _ _ => inv_of_step

/-- Settles O44: the range grows with every write, and a completion, which empties it, has just sent its pages. -/
theorem stepKeepsRangeConservative : Obligations.StepKeepsRangeConservative := fun _ _ => conservative_of_step

/-- Settles O47: every step of the run keeps the range conservative, and no page lies in the clean range. -/
theorem cleanRangeMeansStoreWasLastSent : Obligations.CleanRangeMeansStoreWasLastSent := by
  intro n s t hi hc hrun hclean p hp
  obtain ⟨-, hcons⟩ : t.Inv ∧ t.Conservative :=
    run_keeps (P := fun s => s.Inv ∧ s.Conservative)
      (fun _ _ ⟨hi, hc⟩ h => ⟨inv_of_step hi h, conservative_of_step hi hc h⟩) ⟨hi, hc⟩ hrun
  have hd : t.dirty = .clean := t.dirty.isClean_iff.mp (by simpa [isDirty] using hclean)
  exact hcons p hp (hd ▸ DirtyRange.not_covers_clean hp)

/-- Settles O10: only a step that takes the word on the port shortens the host's words, by that one. -/
theorem hostWordsAreTakenInOrder : Obligations.HostWordsAreTakenInOrder := by
  intro s t h
  rcases step_cases s with ⟨-, hs⟩ | ⟨hr, ⟨tr, -, hs⟩ | ⟨hp, ⟨-, hs⟩ | ⟨cw, rest, i, hh, -, hs⟩ |
    ⟨cw, rest, e, hh, -, hs⟩⟩⟩ <;> rw [hs] at h
  · obtain rfl := Host.Outcome.next.inj h
    exact .inl rfl
  · obtain rfl := Host.Outcome.next.inj h
    exact .inl (flushStep_host ..)
  · obtain rfl := Host.Outcome.next.inj h
    exact .inl rfl
  · exact .inr ⟨hr, hp, cw, by simp [exec_host h, hh]⟩
  · obtain rfl := Host.Outcome.next.inj h
    exact .inr ⟨hr, hp, cw, by simp [hh]⟩

/-- Settles O12: by the reset operation, field by field. -/
theorem resetInputEntersResetState : Obligations.ResetInputEntersResetState := fun _ hr =>
  ⟨_, step_of_rst hr, fun _ hi => splashStore_read hi, rfl, rfl, rfl, rfl, rfl, by simp, rfl, rfl, rfl⟩

/-- Settles O46: completion and cut append their event to the history, nothing else does. -/
theorem shadowFollowsThePort : Obligations.ShadowFollowsThePort := by
  refine fun s t p h => ⟨fun tr hc => ?_, fun tr hr hp => ?_, fun hc hcut => ?_⟩
  · obtain rfl := Host.Outcome.next.inj ((step_completes hc).symm.trans h)
    simp [shadowPage_completed]
  · obtain rfl := Host.Outcome.next.inj ((step_of_rst hr).symm.trans h)
    rw [resetEngine_history, cutFlush_takeRstSample, cutFlush_flushing hp, shadowPage_append, PortEvent.shadow]
  · rw [step_history_of_no_event h hc hcut]

/-- Settles O51: what a command writes is marked, and only three kinds of command write. -/
theorem storeWriters : Obligations.StoreWriters := by
  intro s t a h hne
  have hfb : t.fb ≠ s.fb := fun e => hne (by rw [e])
  cases step_effect h with
  | reset hr ht => exact .inl hr
  | waiting hr tr hp ha ht => exact absurd (by simp [ht]) hfb
  | completion tr hcomp ht => exact absurd (by simp [ht]) hfb
  | flushStart htake hd ht => exact absurd (by simp [ht]) hfb
  | service hr hp hm =>
    obtain ⟨hlt, hcov⟩ := hm.marked a hne
    obtain ⟨_, hi, rfl | ⟨on, px, py, rfl⟩ | ⟨o, img, x, y, rfl⟩⟩ := takes_writer_of_step h hr hfb
    · exact .inr ⟨hlt, hcov, .inl hi⟩
    · exact .inr ⟨hlt, hcov, .inr (.inl ⟨on, px, py, hi⟩)⟩
    · exact .inr ⟨hlt, hcov, .inr (.inr ⟨o, img, x, y, hi⟩)⟩

/-- Settles O9: an idle engine with no word, and a waiting flush, use up their samples only. -/
theorem readinessAndIdleAndWaitingSteps : Obligations.ReadinessAndIdleAndWaitingSteps := by
  refine ⟨fun _ => cmdReady_iff, fun s hr hp hh => step_of_noWord hr hp hh, fun s tr hr hp ha => ?_⟩
  refine ⟨takeSinkAnswer (takeRstSample s), ?_, by simpa using hp, ?_⟩
  · rw [step_of_flushing hr hp, flushStep, if_neg (by simp [ha])]
  · simp

/-- Settles O11: the splash image byte by byte, the other elements as they stand in `State.reset`. -/
theorem resetValues : Obligations.ResetValues :=
  ⟨fun _ hi => splashStore_read hi, rfl, rfl, rfl, rfl, rfl, by decide⟩

/-- Settles O13: bit by bit, from where the fields stand. -/
theorem statusFields : Obligations.StatusFields := by
  refine fun s => ⟨?_, ?_, ?_, ?_, status_getLsbD s 10, status_getLsbD s 11, ?_⟩
  · refine BitVec.eq_of_getLsbD_eq fun j hj => ?_
    rw [BitVec.getLsbD_extractLsb', status_getLsbD]
    grind
  · refine BitVec.eq_of_getLsbD_eq fun j hj => ?_
    rw [BitVec.getLsbD_extractLsb', status_getLsbD]
    grind
  · rw [status_getLsbD]
    exact isDirty_iff
  · rw [status_getLsbD]
    exact isBusy_iff
  · refine BitVec.eq_of_getLsbD_eq fun j hj => ?_
    rw [BitVec.getLsbD_extractLsb', status_getLsbD]
    grind

/-- Settles O18: the type of the range carries R25. -/
theorem rangeIsCleanOrOrdered : Obligations.RangeIsCleanOrOrdered := fun s =>
  s.dirty.legal.imp_left fun ⟨hf, hl⟩ => ⟨BitVec.eq_of_toNat_eq hf, BitVec.eq_of_toNat_eq hl⟩

/-- Settles O43: the reset memories are canonical, no transfer is in flight and none was sent. -/
theorem resetMeetsInvariant : Obligations.ResetMeetsInvariant :=
  ⟨splashStore_wf, reset_imem_wf, State.inFlight_of_idle rfl, by simp [State.sent, State.reset]⟩

/-- Settles O45: the reset range is full. -/
theorem resetRangeIsConservative : Obligations.ResetRangeIsConservative := conservative_of_full rfl

/-- Settles O49: by the kinds of step. -/
theorem imageMemoryNeverChanges : Obligations.ImageMemoryNeverChanges := by
  intro s t h
  cases step_effect h with
  | reset hr ht => simp [ht]
  | waiting hr tr hp ha ht => simp [ht]
  | completion tr hcomp ht => simp [ht]
  | flushStart htake hd ht => simp [ht]
  | service hr hp hm => exact hm.imem

end Sys2Proof.Machine
end

section
/-! PROOFS. Scope: a run from a `FLUSH` taken to its completion, and what `SETPIX` makes of bytes and pixels. -/

namespace Sys2Proof.Machine

/-! ## A flush in flight, served by listed answers of the sink -/

section
variable {s : State}

/-- A run whose first step answers with `t` goes on from `t`; the converse of `step_of_run_succ`. -/
theorem run_succ_of_step {t : State} (h : step s = .next t) (n : Nat) : core.run (n + 1) s = core.run n t := by
  simp only [Host.Core.run, show core.step s = .next t from h]

/-- While `rst` stays 0 for `n + 1` steps, it is 0 now and stays 0 for `n` steps more. -/
theorem rstSample_and_tail_of_take_succ {n : Nat} (h : ∀ b ∈ s.rst.take (n + 1), b = false) :
    rstSample s = false ∧ ∀ b ∈ s.rst.tail.take n, b = false := by
  unfold rstSample
  cases hr : s.rst with
  | nil => simp
  | cons b rst => simpa [hr] using h

/-- Taking the sample of `rst` and a listed answer of the sink, as one update of the state. -/
theorem takeSinkAnswer_takeRstSample {b : Bool} {rest : List Bool} (h : s.sink = b :: rest) :
    takeSinkAnswer (takeRstSample s) = { s with rst := s.rst.tail, sink := rest } := by
  simp [takeSinkAnswer, takeRstSample, h]

/-- R184: a step at which the sink does not complete uses up the two inputs and changes nothing else. -/
theorem step_waits {tr : Transfer} (hr : rstSample s = false) (hp : s.phase = .flushing tr)
    (ha : sinkAnswer s = false) : step s = .next (takeSinkAnswer (takeRstSample s)) := by
  rw [step_of_flushing hr hp, flushStep, if_neg (by simp [ha])]

/-- R183, R184: `n` waiting steps and the completion use up their samples of `rst` and their answers of the sink; the
rest of what they do is the completion. -/
theorem run_flushing_completes {tr : Transfer} {rest : List Bool} (n : Nat) (hp : s.phase = .flushing tr)
    (hr : ∀ b ∈ s.rst.take (n + 1), b = false) (hk : s.sink = List.replicate n false ++ true :: rest) :
    core.run (n + 1) s = .next (completeFlush tr { s with rst := s.rst.drop (n + 1), sink := rest }) := by
  induction n generalizing s with
  | zero =>
    obtain ⟨hr0, -⟩ := rstSample_and_tail_of_take_succ hr
    rw [run_succ_of_step (step_completes ⟨hr0, hp, sinkAnswer_cons hk⟩), takeSinkAnswer_takeRstSample hk, List.drop_one]
    rfl
  | succ n ih =>
    obtain ⟨hr0, hr⟩ := rstSample_and_tail_of_take_succ hr
    rw [List.replicate_succ, List.cons_append] at hk
    rw [run_succ_of_step (step_waits hr0 hp (sinkAnswer_cons hk)), takeSinkAnswer_takeRstSample hk,
      ← List.drop_tail]
    exact ih hp hr rfl

/-- R115: a clean range starts no transfer. -/
theorem exec_flush_of_clean (h : s.dirty = .clean) : exec .flush s = .next s :=
  congrArg Host.Outcome.next (if_pos (s.dirty.isClean_iff.mpr h))

/-- R116: a dirty range starts one. -/
theorem exec_flush_of_dirty (h : s.dirty.isClean = false) : exec .flush s = .next (startFlush s) :=
  congrArg Host.Outcome.next (if_neg (by simp [h]))

/-- R70, R116: a step that takes a dirty `FLUSH` starts the transfer. -/
theorem step_startsFlush (h : Takes s .flush) (hd : s.dirty.isClean = false) :
    step s = .next (startFlush (takeHostWord (takeRstSample s))) := by
  obtain ⟨hr, hp, cw, rest, hh, hdec⟩ := h
  rw [step_of_word hr hp hh, acceptWord_of_ok hdec]
  exact exec_flush_of_dirty hd

end

/-- Settles O25: the start hands over the pages as the store holds them (`startFlush_inFlight`), the steps after it
leave the store alone, and the completion leaves the range clean. -/
theorem flushDeliversTheStoreAsTaken : Obligations.FlushDeliversTheStoreAsTaken := by
  intro n s rest htake hdirty hr hk
  have hd : s.dirty.isClean = false := by simpa [DirtyRange.isClean] using hdirty
  obtain ⟨-, hr⟩ := rstSample_and_tail_of_take_succ hr
  obtain ⟨-, hfirst, hlast, -⟩ :=
    (State.inFlight_iff_of_flushing (startFlush_phase s)).mp (startFlush_inFlight hd)
  have hrun := (run_succ_of_step (step_startsFlush htake hd) (n + 1)).trans
    (run_flushing_completes n (startFlush_phase _) hr hk)
  exact ⟨_, flushTransfer s, hrun, completeFlush_sent .., hfirst, hlast, rfl, rfl, exec_flush_of_clean rfl⟩

/-! ## SETPIX -/

/-- R170: the mask of row `py` has the one bit `py mod 8`. -/
theorem pixelMask_getLsbD (py : BitVec 6) {j : Nat} (hj : j < 8) :
    (pixelMask py).getLsbD j = decide (j = py.toNat % 8) := by
  simp only [pixelMask, BitVec.getLsbD_shiftLeft, BitVec.getLsbD_one]
  grind

/-- R171 in bits: Over of the mask of row `py` sets bit `py mod 8`, Clear of it clears that bit; both keep the others. -/
theorem opByte_pixelMask_getLsbD (on : Bool) (d : Byte) (py : BitVec 6) {j : Nat} (hj : j < 8) :
    (opByte (if on then .over else .clear) d (pixelMask py)).getLsbD j =
      if j = py.toNat % 8 then on else d.getLsbD j := by
  cases on with
  | true => simp [opByte, -BitVec.getLsbD_eq_getElem, pixelMask_getLsbD py hj, Bool.or_comm]
  | false => simp [opByte, -BitVec.getLsbD_eq_getElem, pixelMask_getLsbD py hj, hj, Bool.and_comm]

/-- R170, R171: `SETPIX` writes the byte of its pixel and no other. -/
theorem exec_setpix_read {on : Bool} {px : BitVec 7} {py : BitVec 6} {s t : State}
    (h : exec (.setpix on px py) s = .next t) (a : Nat) :
    t.fb.read a = if a = pixelIndex px py
      then opByte (if on then .over else .clear) (s.fb.read a) (pixelMask py) else s.fb.read a := by
  obtain rfl := Host.Outcome.next.inj h
  rw [invalidate_fb, writeStore_fb, Memory.read_write]
  split
  next ha => subst ha; cases on <;> rfl
  next => rfl

/-- R41: two pixels of the display that share the byte and the bit are one pixel. -/
theorem pixelIndex_eq_and_bit_eq_iff (px : BitVec 7) (py : BitVec 6) {x : Nat} (hx : x < 128) (y : Nat) :
    (y / 8 * 128 + x = pixelIndex px py ∧ y % 8 = py.toNat % 8) ↔ x = px.toNat ∧ y = py.toNat := by
  have := px.isLt
  unfold pixelIndex
  omega

/-- Settles O28: a pixel changes only in the byte of `(px, py)` and there only at its bit, which is that pixel's. -/
theorem setpixChangesOnePixel : Obligations.SetpixChangesOnePixel := by
  intro on px py s t h x hx y _
  simp only [← pixelIndex_eq_and_bit_eq_iff px py hx y, pixel, exec_setpix_read h]
  by_cases hbyte : y / 8 * 128 + x = pixelIndex px py
  · rw [if_pos hbyte, opByte_pixelMask_getLsbD on _ py (Nat.mod_lt y (by decide))]
    simp only [hbyte, true_and]
  · rw [if_neg hbyte, if_neg fun h => hbyte h.1]

end Sys2Proof.Machine
end

section
/-! PROOFS. Scope: the decoder row by row of the opcode map, the round trips, operands as numbers, and the illegal
words. -/

namespace Sys2Proof

/-! ## Fields and masks -/

/-- The mask of the `n` bits from bit `lo` up. -/
def fieldMask (lo n : Nat) : CmdWord := placeField lo (BitVec.allOnes n)

/-- Bit `j` of a field's mask: 1 exactly inside the field. -/
@[simp] theorem getLsbD_fieldMask (lo n : Nat) {j : Nat} (hj : j < 64) :
    (fieldMask lo n).getLsbD j = decide (lo ≤ j ∧ j < lo + n) := by
  simp only [fieldMask, getLsbD_placeField, BitVec.getLsbD_allOnes]
  grind

/-- A field cut out and put back in its place is the word under the field's mask. -/
theorem placeField_extractLsb' (lo n : Nat) (cw : CmdWord) :
    placeField lo (cw.extractLsb' lo n) = cw &&& fieldMask lo n := by
  refine BitVec.eq_of_getLsbD_eq fun j hj => ?_
  simp only [getLsbD_placeField, BitVec.getLsbD_extractLsb', BitVec.getLsbD_and, getLsbD_fieldMask lo n hj]
  grind

/-- A field placed inside the word can be cut out again. -/
theorem extractLsb'_placeField_same {n : Nat} (lo : Nat) (f : BitVec n) (h : lo + n ≤ 64) :
    (placeField lo f).extractLsb' lo n = f := by
  refine BitVec.eq_of_getLsbD_eq fun j hj => ?_
  simp only [BitVec.getLsbD_extractLsb', getLsbD_placeField]
  grind

/-- A field beside a placed field is 0. -/
theorem extractLsb'_placeField_disjoint {k : Nat} (lo n lo' : Nat) (f : BitVec k)
    (h : lo + n ≤ lo' ∨ lo' + k ≤ lo) : (placeField lo' f).extractLsb' lo n = 0#n := by
  refine BitVec.eq_of_getLsbD_eq fun j hj => ?_
  simp only [BitVec.getLsbD_extractLsb', getLsbD_placeField]
  grind

/-- A field has the value `f` exactly when the word under the field's mask is `f` in its place. -/
theorem extractLsb'_eq_iff {n : Nat} (lo : Nat) (f : BitVec n) (h : lo + n ≤ 64) (cw : CmdWord) :
    cw.extractLsb' lo n = f ↔ cw &&& fieldMask lo n = placeField lo f := by
  rw [← placeField_extractLsb']
  refine ⟨fun h => by rw [h], fun heq => ?_⟩
  rw [← extractLsb'_placeField_same lo (cw.extractLsb' lo n) h, heq, extractLsb'_placeField_same lo f h]

/-- With two disjoint masks, the word under both is a value of the first exactly when the word under the first is that
value and the word under the second is 0. -/
theorem and_or_eq_iff {m r a : CmdWord} (hmr : m &&& r = 0#64) (ham : a &&& m = a) (cw : CmdWord) :
    cw &&& (m ||| r) = a ↔ cw &&& m = a ∧ cw &&& r = 0#64 := by
  rw [BitVec.and_or_distrib_left]
  constructor
  · intro h
    have har : a &&& r = 0#64 := by rw [← ham, BitVec.and_assoc, hmr, BitVec.and_zero]
    have hm := congrArg (· &&& m) h
    have hr := congrArg (· &&& r) h
    simp only [BitVec.and_or_distrib_right, BitVec.and_assoc, BitVec.and_self, BitVec.and_comm r m, hmr, ham, har,
      BitVec.and_zero, BitVec.or_zero, BitVec.zero_or] at hm hr
    exact ⟨hm, hr⟩
  · rintro ⟨hm, hr⟩
    rw [hm, hr, BitVec.or_zero]

/-! ## The rows of the opcode map -/

/-- The reserved bits of the format of a command (R72 to R75). -/
def Instr.reservedMask : Instr → CmdWord
  | .inval | .clear | .flush => fieldMask 0 56
  | .mark _ => fieldMask 3 53
  | .setpix _ _ _ => fieldMask 17 39 ||| fieldMask 15 1 ||| fieldMask 6 2
  | .draw _ _ _ | .clrimg _ _ _ | .blend _ _ _ => fieldMask 48 8

/-- The command of the row of `i` whose operands are the fields of the word `cw` (R72 to R75). -/
def Instr.readFrom (i : Instr) (cw : CmdWord) : Instr :=
  match i with
  | .inval => .inval
  | .mark _ => .mark (cw.extractLsb' 0 3)
  | .clear => .clear
  | .flush => .flush
  | .setpix _ _ _ => .setpix (cw.getLsbD 16) (cw.extractLsb' 8 7) (cw.extractLsb' 0 6)
  | .draw _ _ _ => .draw (cw.extractLsb' 0 16) (cw.extractLsb' 32 16) (cw.extractLsb' 16 16)
  | .clrimg _ _ _ => .clrimg (cw.extractLsb' 0 16) (cw.extractLsb' 32 16) (cw.extractLsb' 16 16)
  | .blend _ _ _ => .blend (cw.extractLsb' 0 16) (cw.extractLsb' 32 16) (cw.extractLsb' 16 16)

@[simp] theorem Instr.readFrom_opcode (i : Instr) (cw : CmdWord) : (i.readFrom cw).opcode = i.opcode := by
  cases i <;> rfl

@[simp] theorem Instr.readFrom_reservedMask (i : Instr) (cw : CmdWord) :
    (i.readFrom cw).reservedMask = i.reservedMask := by
  cases i <;> rfl

/-- A field is 0 exactly when the word has no bit under the field's mask. -/
theorem extractLsb'_eq_zero_iff (lo n : Nat) (h : lo + n ≤ 64) (cw : CmdWord) :
    cw.extractLsb' lo n = 0#n ↔ cw &&& fieldMask lo n = 0#64 := by
  rw [extractLsb'_eq_iff lo _ h, show placeField lo 0#n = 0#64 by simp [placeField]]

/-- Format N: no bit under the mask of the reserved bits (R72). -/
theorem decodeN_eq (i : Instr) (cw : CmdWord) :
    decodeN i cw = if cw &&& fieldMask 0 56 = 0#64 then .ok i else .error .reservedBit :=
  if_congr (extractLsb'_eq_zero_iff 0 56 (by decide) cw) rfl rfl

/-- Format G (R73). -/
theorem decodeG_eq (cw : CmdWord) : decodeG cw =
    if cw &&& fieldMask 3 53 = 0#64 then .ok (.mark (cw.extractLsb' 0 3)) else .error .reservedBit :=
  if_congr (extractLsb'_eq_zero_iff 3 53 (by decide) cw) rfl rfl

/-- Format X (R74). -/
theorem decodeX_eq (cw : CmdWord) : decodeX cw =
    if cw &&& (fieldMask 17 39 ||| fieldMask 15 1 ||| fieldMask 6 2) = 0#64 then
      .ok (.setpix (cw.getLsbD 16) (cw.extractLsb' 8 7) (cw.extractLsb' 0 6))
    else .error .reservedBit := by
  refine if_congr ?_ rfl rfl
  rw [BitVec.and_or_distrib_left, BitVec.and_or_distrib_left, BitVec.or_eq_zero_iff, BitVec.or_eq_zero_iff, and_assoc]
  exact and_congr (extractLsb'_eq_zero_iff 17 39 (by decide) cw)
    (and_congr (extractLsb'_eq_zero_iff 15 1 (by decide) cw) (extractLsb'_eq_zero_iff 6 2 (by decide) cw))

/-- Format P (R75). -/
theorem decodeP_eq (mk : ImgAddr → BitVec 16 → BitVec 16 → Instr) (cw : CmdWord) : decodeP mk cw =
    if cw &&& fieldMask 48 8 = 0#64 then
      .ok (mk (cw.extractLsb' 0 16) (cw.extractLsb' 32 16) (cw.extractLsb' 16 16))
    else .error .reservedBit :=
  if_congr (extractLsb'_eq_zero_iff 48 8 (by decide) cw) rfl rfl

/-- What the decoder makes of a word that carries the opcode of `i`: its reserved bits and its operands are those of the
format of `i`. -/
theorem decode_of_opcode {i : Instr} {cw : CmdWord} (h : opcodeField cw = i.opcode) :
    decode cw = if cw &&& i.reservedMask = 0#64 then .ok (i.readFrom cw) else .error .reservedBit := by
  cases i <;> simp only [decode, h, Instr.opcode, reduceIte, BitVec.reduceEq]
  case inval | clear | flush => exact decodeN_eq _ cw
  case mark => exact decodeG_eq cw
  case setpix => exact decodeX_eq cw
  case draw | clrimg | blend => exact decodeP_eq _ cw

/-- A word with the opcode of no command (R86 (a)). -/
theorem decode_of_unassigned {cw : CmdWord} (h : ∀ i : Instr, opcodeField cw ≠ i.opcode) :
    decode cw = .error .unassignedOpcode :=
  (if_neg (h .inval)).trans <| (if_neg (h (.mark 0))).trans <| (if_neg (h .clear)).trans <|
    (if_neg (h .flush)).trans <| (if_neg (h (.setpix false 0 0))).trans <| (if_neg (h (.draw 0 0 0))).trans <|
    (if_neg (h (.clrimg 0 0 0))).trans <| if_neg (h (.blend 0 0 0))

@[simp] theorem Instr.readFrom_readFrom (i : Instr) (cw : CmdWord) : (i.readFrom cw).readFrom cw = i.readFrom cw := by
  cases i <;> rfl

/-- A word decodes to `i` exactly when it carries the opcode of `i`, no reserved bit of its format, and the operands of
`i` in their fields. -/
theorem decode_eq_ok_iff (cw : CmdWord) (i : Instr) : decode cw = .ok i ↔
    opcodeField cw = i.opcode ∧ cw &&& i.reservedMask = 0#64 ∧ i.readFrom cw = i := by
  constructor
  · intro hd
    by_cases h : ∃ j : Instr, opcodeField cw = j.opcode
    · obtain ⟨j, hj⟩ := h
      rw [decode_of_opcode hj] at hd
      split at hd
      next hres =>
        obtain rfl := Except.ok.inj hd
        simp [hj, hres]
      next => cases hd
    · rw [decode_of_unassigned (not_exists.mp h)] at hd
      cases hd
  · rintro ⟨hop, hres, hread⟩
    rw [decode_of_opcode hop, if_pos hres, hread]

/-! ## The round trips -/

/-- The one bit of `on` as a field. -/
theorem extractLsb'_one (lo : Nat) (cw : CmdWord) : cw.extractLsb' lo 1 = BitVec.ofBool (cw.getLsbD lo) := by
  refine BitVec.eq_of_getLsbD_eq fun j hj => ?_
  obtain rfl : j = 0 := by omega
  simp

/-- The reserved bits of the word of a command are 0. -/
theorem encode_and_reservedMask (i : Instr) : encode i &&& i.reservedMask = 0#64 := by
  cases i <;>
    simp [encode, encodeP, Instr.reservedMask, BitVec.and_or_distrib_left, ← extractLsb'_eq_zero_iff,
      BitVec.extractLsb'_or, extractLsb'_placeField_disjoint]

/-- The fields of the word of a command are its operands. -/
theorem readFrom_encode (i : Instr) : i.readFrom (encode i) = i := by
  cases i <;>
    simp [-BitVec.getLsbD_eq_getElem, Instr.readFrom, encode, encodeP, BitVec.extractLsb'_or,
      extractLsb'_placeField_disjoint, extractLsb'_placeField_same]

/-- R71, for every command. -/
theorem opcodeField_encode (i : Instr) : opcodeField (encode i) = i.opcode := by
  cases i with
  | inval => exact Laws.OpcodeField.inval
  | mark page => exact Laws.OpcodeField.mark page
  | clear => exact Laws.OpcodeField.clear
  | flush => exact Laws.OpcodeField.flush
  | setpix on px py => exact Laws.OpcodeField.setpix on px py
  | draw img x y => exact Laws.OpcodeField.draw img x y
  | clrimg img x y => exact Laws.OpcodeField.clrimg img x y
  | blend img x y => exact Laws.OpcodeField.blend img x y

/-- Settles O1: the word of a command carries its opcode, no reserved bit, and its operands in their fields. -/
theorem decodeAfterEncode : Obligations.DecodeAfterEncode := fun i =>
  (decode_eq_ok_iff _ i).mpr ⟨opcodeField_encode i, encode_and_reservedMask i, readFrom_encode i⟩

/-- The fields of a word, put back in their places, are the word without the reserved bits of its format. -/
theorem encode_readFrom {i : Instr} {cw : CmdWord} (h : opcodeField cw = i.opcode) :
    encode (i.readFrom cw) = cw &&& ~~~i.reservedMask := by
  have hop : placeField 56 i.opcode = cw &&& fieldMask 56 8 := h ▸ placeField_extractLsb' 56 8 cw
  cases i <;>
  · simp only [Instr.opcode] at hop
    simp only [encode, encodeP, Instr.readFrom, Instr.opcode, Instr.reservedMask, hop, ← extractLsb'_one,
      placeField_extractLsb', ← BitVec.and_or_distrib_left]
    exact congrArg (cw &&& ·) (by decide)

/-- Settles O2: a word that decodes has no bit outside its fields. -/
theorem encodeAfterDecode : Obligations.EncodeAfterDecode := by
  intro cw i h
  obtain ⟨hop, hres, hread⟩ := (decode_eq_ok_iff cw i).mp h
  calc encode i = encode (i.readFrom cw) := by rw [hread]
    _ = cw &&& ~~~i.reservedMask := encode_readFrom hop
    _ = (cw &&& ~~~i.reservedMask) ||| (cw &&& i.reservedMask) := by rw [hres, BitVec.or_zero]
    _ = cw := by rw [← BitVec.and_or_distrib_left, BitVec.or_comm, BitVec.or_not_self, BitVec.and_allOnes]

end Sys2Proof

namespace Sys2Proof.Machine

/-! ## The mask and match pairs of R77 -/

/-- R77: a word carries the opcode of `i` and no reserved bit exactly when it matches under the mask of the row. -/
theorem opcodeField_and_reserved_iff (i : Instr) (cw : CmdWord) :
    opcodeField cw = i.opcode ∧ cw &&& i.reservedMask = 0#64 ↔
      cw &&& (fieldMask 56 8 ||| i.reservedMask) = placeField 56 i.opcode := by
  have hdisjoint : fieldMask 56 8 &&& i.reservedMask = 0#64 := by
    cases i <;> simp only [Instr.reservedMask] <;> decide
  have hmatch : placeField 56 i.opcode &&& fieldMask 56 8 = placeField 56 i.opcode := by
    rw [← placeField_extractLsb', extractLsb'_placeField_same 56 _ (by decide)]
  rw [and_or_eq_iff hdisjoint hmatch]
  exact and_congr_left' (extractLsb'_eq_iff 56 _ (by decide) cw)

/-- R77, for the row of `i`: the word decodes to a command of the row exactly when it matches. -/
theorem decode_eq_readFrom_iff (i : Instr) (cw : CmdWord) : decode cw = .ok (i.readFrom cw) ↔
    cw &&& (fieldMask 56 8 ||| i.reservedMask) = placeField 56 i.opcode := by
  simp [decode_eq_ok_iff, ← opcodeField_and_reserved_iff]

/-- R76: a word that decodes has the operands in their fields. -/
theorem readFrom_of_decode {cw : CmdWord} {i : Instr} (h : decode cw = .ok i) : i.readFrom cw = i := by
  obtain ⟨-, -, hread⟩ := (decode_eq_ok_iff cw i).mp h
  exact hread

/-- A word that decodes decodes to the command of its own fields. -/
theorem decode_eq_readFrom {cw : CmdWord} {i : Instr} (h : decode cw = .ok i) : decode cw = .ok (i.readFrom cw) :=
  h.trans (congrArg _ (readFrom_of_decode h).symm)

/-- The three paint commands are read by one format (R75). -/
theorem readFrom_paintInstr (o : Operator) (img : ImgAddr) (x y : BitVec 16) (cw : CmdWord) :
    (paintInstr o img x y).readFrom cw =
      paintInstr o (cw.extractLsb' 0 16) (cw.extractLsb' 32 16) (cw.extractLsb' 16 16) := by
  cases o <;> rfl

theorem paintInstr_inj {o : Operator} {img img' : ImgAddr} {x y x' y' : BitVec 16} :
    paintInstr o img x y = paintInstr o img' x' y' ↔ img = img' ∧ x = x' ∧ y = y' := by
  cases o <;> simp [paintInstr]

/-- R77, for the row of a paint command. -/
theorem exists_decode_eq_paintInstr_iff (o : Operator) (cw : CmdWord) :
    (∃ img x y, decode cw = .ok (paintInstr o img x y)) ↔
      cw &&& (fieldMask 56 8 ||| (paintInstr o 0 0 0).reservedMask) = placeField 56 (paintInstr o 0 0 0).opcode := by
  rw [← decode_eq_readFrom_iff, readFrom_paintInstr]
  refine ⟨fun ⟨img, x, y, h⟩ => ?_, fun h => ⟨_, _, _, h⟩⟩
  rw [decode_eq_readFrom h, readFrom_paintInstr]

/-- Settles O3: each row's mask is the opcode field and the reserved bits of its format, its match the opcode. The
equivalence of a row is taken at one command of it; the fields of the word give the operands. -/
theorem wordSpellsRowIffMaskMatches : Obligations.WordSpellsRowIffMaskMatches := by
  intro cw
  have hrow := fun i => decode_eq_readFrom_iff i cw
  refine ⟨hrow .inval, ?mark, hrow .clear, hrow .flush, ?setpix, exists_decode_eq_paintInstr_iff .set cw,
    exists_decode_eq_paintInstr_iff .clear cw, exists_decode_eq_paintInstr_iff .over cw, ?illegal⟩
  case mark => exact ⟨fun ⟨_, h⟩ => (hrow (.mark 0)).mp (decode_eq_readFrom h :), fun h => ⟨_, (hrow (.mark 0)).mpr h⟩⟩
  case setpix => exact ⟨fun ⟨_, _, _, h⟩ => (hrow (.setpix false 0 0)).mp (decode_eq_readFrom h :),
    fun h => ⟨_, _, _, (hrow (.setpix false 0 0)).mpr h⟩⟩
  case illegal =>
    cases decode cw with
    | ok i => exact fun hnone => absurd rfl (hnone i)
    | error e => exact fun _ => ⟨e, rfl⟩

/-! ## Operands as numbers (R76) -/

/-- A field of the word as a number. -/
theorem toNat_extractLsb' (lo n : Nat) (cw : CmdWord) :
    (cw.extractLsb' lo n).toNat = cw.toNat / 2 ^ lo % 2 ^ n := by
  rw [BitVec.extractLsb'_toNat, Nat.shiftRight_eq_div_pow]

/-- A 16-bit field of the word as a two's complement number. -/
theorem sext16_extractLsb' (lo : Nat) (cw : CmdWord) : sext16 (cw.extractLsb' lo 16) =
    if cw.toNat / 2 ^ lo % 65536 < 32768 then ((cw.toNat / 2 ^ lo % 65536 : Nat) : Int)
    else ((cw.toNat / 2 ^ lo % 65536 : Nat) : Int) - 65536 := by
  rw [sext16, BitVec.toInt_eq_toNat_cond, toNat_extractLsb']
  grind

/-- Settles O4: the operands of a word that decodes are its fields, and a field is a quotient and remainder. -/
theorem operandsAreFieldsOfTheWord : Obligations.OperandsAreFieldsOfTheWord := by
  intro cw
  refine ⟨fun page h => ?mark, fun on px py h => ?setpix, fun o img x y h => ?paint⟩
  case mark =>
    obtain rfl := Instr.mark.inj (readFrom_of_decode h)
    exact (toNat_extractLsb' 0 3 cw).trans (by simp)
  case setpix =>
    obtain ⟨rfl, rfl, rfl⟩ := Instr.setpix.inj (readFrom_of_decode h)
    exact ⟨rfl, toNat_extractLsb' 8 7 cw, (toNat_extractLsb' 0 6 cw).trans (by simp)⟩
  case paint =>
    obtain ⟨rfl, rfl, rfl⟩ := paintInstr_inj.mp ((readFrom_paintInstr ..).symm.trans (readFrom_of_decode h))
    exact ⟨(toNat_extractLsb' 0 16 cw).trans (by simp), sext16_extractLsb' 32 cw, sext16_extractLsb' 16 cw⟩

/-! ## Illegal words (R86) -/

/-- A property of the opcode and the reserved bits, row by row. -/
theorem exists_opcode_and_reservedMask_iff (P : BitVec 8 → CmdWord → Prop) :
    (∃ i : Instr, P i.opcode i.reservedMask) ↔
      P 0x01#8 0x00FFFFFFFFFFFFFF#64 ∨ P 0x02#8 0x00FFFFFFFFFFFFF8#64 ∨ P 0x03#8 0x00FFFFFFFFFFFFFF#64 ∨
      P 0x04#8 0x00FFFFFFFFFFFFFF#64 ∨ P 0x08#8 0x00FFFFFFFFFE80C0#64 ∨ P 0x10#8 0x00FF000000000000#64 ∨
      P 0x11#8 0x00FF000000000000#64 ∨ P 0x12#8 0x00FF000000000000#64 := by
  constructor
  · rintro ⟨i, h⟩
    cases i with
    | inval => exact .inl h
    | mark => exact .inr <| .inl h
    | clear => exact .inr <| .inr <| .inl h
    | flush => exact .inr <| .inr <| .inr <| .inl h
    | setpix => exact .inr <| .inr <| .inr <| .inr <| .inl h
    | draw => exact .inr <| .inr <| .inr <| .inr <| .inr <| .inl h
    | clrimg => exact .inr <| .inr <| .inr <| .inr <| .inr <| .inr <| .inl h
    | blend => exact .inr <| .inr <| .inr <| .inr <| .inr <| .inr <| .inr h
  · rintro (h | h | h | h | h | h | h | h)
    exacts [⟨.inval, h⟩, ⟨.mark 0, h⟩, ⟨.clear, h⟩, ⟨.flush, h⟩, ⟨.setpix false 0 0, h⟩, ⟨.draw 0 0 0, h⟩,
      ⟨.clrimg 0 0 0, h⟩, ⟨.blend 0 0 0, h⟩]

/-- R86 (a): the word carries the opcode of no command. -/
theorem decode_eq_unassigned_iff (cw : CmdWord) :
    decode cw = .error .unassignedOpcode ↔ ¬ ∃ i : Instr, opcodeField cw = i.opcode := by
  constructor
  · rintro hd ⟨i, h⟩
    rw [decode_of_opcode h] at hd
    split at hd <;> cases hd
  · exact fun h => decode_of_unassigned (not_exists.mp h)

/-- R86 (b): the word carries the opcode of a command and a reserved bit of its format. -/
theorem decode_eq_reservedBit_iff (cw : CmdWord) :
    decode cw = .error .reservedBit ↔ ∃ i : Instr, opcodeField cw = i.opcode ∧ cw &&& i.reservedMask ≠ 0#64 := by
  constructor
  · intro hd
    by_cases h : ∃ i : Instr, opcodeField cw = i.opcode
    · obtain ⟨i, h⟩ := h
      refine ⟨i, h, fun hres => ?_⟩
      rw [decode_of_opcode h, if_pos hres] at hd
      cases hd
    · rw [(decode_eq_unassigned_iff cw).mpr h] at hd
      cases hd
  · rintro ⟨i, h, hres⟩
    rw [decode_of_opcode h, if_neg hres]

/-- The opcode as a number (R71). -/
theorem opcodeField_eq_iff (cw : CmdWord) (op : BitVec 8) : opcodeField cw = op ↔ cw.toNat / 2 ^ 56 = op.toNat := by
  rw [← BitVec.toNat_inj, opcodeField, toNat_extractLsb']
  have := cw.isLt
  omega

/-- R86: the step that takes an illegal word sets `ILL`; the word and the sample of `rst` are used up. -/
theorem step_of_illegal {s : State} {cw : CmdWord} {rest : List CmdWord} {e : Illegal}
    (hr : rstSample s = false) (hp : s.phase = .idle) (hh : s.host = cw :: rest) (hd : decode cw = .error e) :
    step s = .next { s with ill := true, host := rest, rst := s.rst.tail } := by
  rw [step_of_word hr hp hh, acceptWord_of_error hd, takeHostWord_takeRstSample hh]
  rfl

/-- Settles O5: the two grounds are read off the rows of the opcode map, and the step is `raise Illegal`. -/
theorem illegalWordSetsIllOnly : Obligations.IllegalWordSetsIllOnly := by
  refine ⟨fun cw => ?unassigned, fun cw => ?reserved, ⟨.unassignedOpcode, by decide⟩, ⟨.unassignedOpcode, by decide⟩,
    fun s cw rest e hr hp hh hd => ⟨_, step_of_illegal hr hp hh hd, rfl, ?ready⟩⟩
  case unassigned =>
    rw [decode_eq_unassigned_iff, exists_opcode_and_reservedMask_iff fun op _ => opcodeField cw = op]
    simp [opcodeField_eq_iff]
  case reserved =>
    rw [decode_eq_reservedBit_iff,
      exists_opcode_and_reservedMask_iff fun op mask => opcodeField cw = op ∧ cw &&& mask ≠ 0#64]
    simp only [opcodeField_eq_iff, BitVec.toNat_ofNat, Nat.reducePow, Nat.reduceMod, List.mem_cons, List.not_mem_nil,
      or_false]
    tauto
  case ready => simp [cmdReady, isBusy, hp]

/-- Settles O6, word by word. -/
theorem workedWordsDecode : Obligations.WorkedWordsDecode := by
  refine ⟨?_, ?_, ?_, ?_, ?_, ?_, ?_, ?_, ?_⟩ <;> decide

end Sys2Proof.Machine
end

section
/-! PROOFS. Scope: the assembler on single lines, and the names of the commands in the text of a line (R90). -/

namespace Sys2Proof.Machine

/-! ## Lines and their operands -/

/-- R90: a line out of range is refused. -/
theorem assemble_of_not_wellFormed {l : Line} (h : l.wellFormed = false) (digits : Fin 10 → ImgAddr) :
    assemble l digits = none :=
  if_neg (by simp [h])

/-- A line that expands to itself and is in range assembles to its one command. -/
theorem assemble_of_wellFormed {l : Line} {i : Instr} {digits : Fin 10 → ImgAddr} (hl : l.wellFormed = true)
    (hexpand : expandLine l digits = [l]) (hi : lineInstr l = some i) : assemble l digits = some [i] := by
  simp [assemble, assembleCommand, hl, hexpand, hi]

theorem inRange_iff (lo hi v : Int) : inRange lo hi v = true ↔ lo ≤ v ∧ v ≤ hi := by
  simp [inRange]

/-- An unsigned operand in range is its field's number. -/
theorem toNat_ofInt_of_lt {n : Nat} {v : Int} (h0 : 0 ≤ v) (h : v < (2 : Int) ^ n) :
    ((BitVec.ofInt n v).toNat : Int) = v := by
  have h' : v < ((2 ^ n : Nat) : Int) := by exact_mod_cast h
  rw [BitVec.toNat_ofInt, Int.emod_eq_of_lt h0 h', Int.toNat_of_nonneg h0]

/-- Settles O55: each range of R90 is the range of its field, so the field holds the line's number. -/
theorem assemblerKeepsOperands : Obligations.AssemblerKeepsOperands := by
  refine ⟨fun _ h => assemble_of_not_wellFormed h, fun page h0 h7 => ?mark,
    fun on px py hon0 hon1 hpx0 hpx1 hpy0 hpy1 => ?setpix, fun img x y hi0 hi1 hx0 hx1 hy0 hy1 => ?paint,
    fun _ => ⟨rfl, rfl, rfl⟩⟩
  case mark =>
    have hl : (Line.mark page).wellFormed = true := (inRange_iff ..).mpr ⟨h0, h7⟩
    exact ⟨_, toNat_ofInt_of_lt h0 (by omega), fun _ => assemble_of_wellFormed hl rfl rfl⟩
  case setpix =>
    have hl : (Line.setpix on px py).wellFormed = true := by simp [Line.wellFormed, inRange_iff, *]
    exact ⟨_, _, _, by simp, toNat_ofInt_of_lt hpx0 (by omega), toNat_ofInt_of_lt hpy0 (by omega),
      fun _ => assemble_of_wellFormed hl rfl rfl⟩
  case paint =>
    have hl : paintOperands img x y = true := by simp [paintOperands, inRange_iff, *]
    exact ⟨_, _, _, toNat_ofInt_of_lt hi0 (by omega), BitVec.toInt_ofInt_eq_self (by decide) hx0 (by omega),
      BitVec.toInt_ofInt_eq_self (by decide) hy0 (by omega), fun _ => ⟨assemble_of_wellFormed hl rfl rfl,
        assemble_of_wellFormed hl rfl rfl, assemble_of_wellFormed hl rfl rfl⟩⟩

/-! ## Names -/

/-- A text that can be a line's first word: neither empty nor with a blank or the comment mark in it. -/
def IsWord (w : List Char) : Prop := w ≠ [] ∧ ∀ c ∈ w, isBlank c = false ∧ c ≠ ';'

/-- What a line keeps of the text after its first word: the comment and the blanks at the end are dropped. -/
def afterWord (t : List Char) : List Char := (t.takeWhile (fun c => c ≠ ';')).rdropWhile isBlank

section
variable {w : List Char}

/-- Dropping blanks at the end stops at a word. -/
theorem rdropWhile_isBlank_word_append (hw : IsWord w) (t : List Char) :
    (w ++ t).rdropWhile isBlank = w ++ t.rdropWhile isBlank := by
  obtain ⟨-, hchars⟩ := hw
  induction t using List.reverseRecOn with
  | nil =>
    simp only [List.append_nil, List.rdropWhile_nil, List.rdropWhile_eq_self_iff]
    intro hne
    simp [hchars _ (List.getLast_mem hne)]
  | append_singleton t c ih =>
    rw [← List.append_assoc]
    by_cases hc : isBlank c = true
    · rw [List.rdropWhile_concat_pos _ _ _ hc, List.rdropWhile_concat_pos _ _ _ hc, ih]
    · rw [List.rdropWhile_concat_neg _ _ _ hc, List.rdropWhile_concat_neg _ _ _ hc, List.append_assoc]

/-- The text of a line that begins with a word is the word and what is kept after it. -/
theorem trimBlanks_takeWhile_word_append (hw : IsWord w) (t : List Char) :
    trimBlanks ((w ++ t).takeWhile (fun c => c ≠ ';')) = w ++ afterWord t := by
  have hdrop (u : List Char) : (w ++ u).dropWhile isBlank = w ++ u := by
    obtain ⟨hne, hchars⟩ := hw
    obtain ⟨c, w', rfl⟩ := List.exists_cons_of_ne_nil hne
    simp [hchars c]
  rw [List.takeWhile_append_of_pos fun c hc => by simp [hw.2 c hc]]
  exact (congrArg (List.rdropWhile isBlank) (hdrop _)).trans (rdropWhile_isBlank_word_append hw _)

/-- The characters of a word are no blanks. -/
theorem not_isBlank_of_mem_word (hw : IsWord w) : ∀ c ∈ w, (!isBlank c) = true := by
  simp +contextual [hw.2]

end

/-- After a word and a blank or a comment mark, no character joins the word. -/
theorem takeWhile_afterWord {c : Char} (hc : isBlank c = true ∨ c = ';') (t : List Char) :
    (afterWord (c :: t)).takeWhile (fun c => !isBlank c) = [] := by
  unfold afterWord
  by_cases h : c = ';'
  · simp [h]
  · have hblank := hc.resolve_right h
    rw [List.takeWhile_cons_of_pos (by simp [h])]
    rcases List.prefix_cons_iff.mp (List.rdropWhile_prefix isBlank (c :: _)) with hnil | ⟨u, hu, -⟩
    · rw [hnil, List.takeWhile_nil]
    · rw [hu, List.takeWhile_cons_of_neg (by simp [hblank])]

/-- A line reads its first word only to find the mnemonic: two words for one mnemonic make the same line. -/
theorem parseLine_congr {v w : List Char} (hv : IsWord v) (hw : IsWord w) (h : readMnemonic v = readMnemonic w)
    (symbols : Symbols) {c : Char} (hc : isBlank c = true ∨ c = ';') (rest : List Char) :
    parseLine symbols (v ++ c :: rest) = parseLine symbols (w ++ c :: rest) := by
  simp only [parseLine, trimBlanks_takeWhile_word_append hv, trimBlanks_takeWhile_word_append hw,
    List.dropWhile_append_of_pos (not_isBlank_of_mem_word hv), List.takeWhile_append_of_pos (not_isBlank_of_mem_word hv),
    List.dropWhile_append_of_pos (not_isBlank_of_mem_word hw), List.takeWhile_append_of_pos (not_isBlank_of_mem_word hw),
    takeWhile_afterWord hc, List.append_nil, List.append_eq_nil_iff, hv.1, hw.1, false_and, h]

theorem isWord_capitals (m : Mnemonic) : IsWord m.capitals.toList := by
  cases m <;> simp [IsWord, isBlank, Mnemonic.capitals]

theorem isWord_sourceName {m : Mnemonic} {name : String} (h : m.sourceName = some name) : IsWord name.toList := by
  cases m <;> cases h <;> simp [IsWord, isBlank]

theorem readMnemonic_capitals (m : Mnemonic) : readMnemonic m.capitals.toList = some m := by
  cases m <;> decide +kernel

theorem readMnemonic_sourceName {m : Mnemonic} {name : String} (h : m.sourceName = some name) :
    readMnemonic name.toList = some m := by
  cases m <;> cases h <;> decide +kernel

/-- Settles O56: both names are words, and both are read as the command. -/
theorem aliasesMeanTheirMnemonics : Obligations.AliasesMeanTheirMnemonics := by
  intro m name h symbols rest
  have hcongr {c : Char} := parseLine_congr (c := c) (isWord_sourceName h) (isWord_capitals m)
    ((readMnemonic_sourceName h).trans (readMnemonic_capitals m).symm) symbols
  exact ⟨hcongr (.inl rfl) rest, hcongr (.inr rfl) rest⟩

end Sys2Proof.Machine
end

section
/-! PROOFS. Scope: the laws of the compositing operator, and what they say of `DRAW`, `CLRIMG`, `BLEND`. -/

namespace Sys2Proof.Machine

/-! ## The operator -/

/-- R101: the bits of Set. -/
theorem opByte_set_getLsbD (d s : Byte) (i : Nat) : (opByte .set d s).getLsbD i = s.getLsbD i := rfl

/-- R102: the bits of Clear. -/
theorem opByte_clear_getLsbD (d s : Byte) (i : Nat) :
    (opByte .clear d s).getLsbD i = (d.getLsbD i && !s.getLsbD i) := by
  rw [opByte, BitVec.getLsbD_and, BitVec.getLsbD_not]
  by_cases hi : i < 8
  · simp [hi]
  · simp [BitVec.getLsbD_of_ge d i (Nat.le_of_not_lt hi)]

/-- R103: the bits of Over. -/
theorem opByte_over_getLsbD (d s : Byte) (i : Nat) :
    (opByte .over d s).getLsbD i = (d.getLsbD i || s.getLsbD i) := BitVec.getLsbD_or

/-- R104 (a). -/
theorem opByte_idem (o : Operator) (d s : Byte) : opByte o (opByte o d s) s = opByte o d s := by
  cases o
  case set => rfl
  case clear => simp only [opByte, BitVec.and_assoc, BitVec.and_self]
  case _ => simp only [opByte, BitVec.or_assoc, BitVec.or_self]

/-- R104 (b): Over turns no bit off. -/
theorem opByte_over_getLsbD_of_getLsbD {d : Byte} {j : Nat} (h : d.getLsbD j = true) (s : Byte) :
    (opByte .over d s).getLsbD j = true := by
  rw [opByte_over_getLsbD, h, Bool.true_or]

/-- R104 (b) as masks: Over keeps every bit of the destination. -/
theorem opByte_over_and_self (d s : Byte) : opByte .over d s &&& d = d := by
  refine BitVec.eq_of_getLsbD_eq fun i _ => ?_
  rw [BitVec.getLsbD_and]
  exact Bool.and_eq_right_iff_imp.mpr fun h => opByte_over_getLsbD_of_getLsbD h s

/-- R104 (f) for Over: the order of two sources does not matter. -/
theorem opByte_over_right_comm (d s t : Byte) :
    opByte .over (opByte .over d s) t = opByte .over (opByte .over d t) s := by
  simp only [opByte, BitVec.or_assoc, BitVec.or_comm s t]

/-- R104 (f) for Clear: the order of two sources does not matter. -/
theorem opByte_clear_right_comm (d s t : Byte) :
    opByte .clear (opByte .clear d s) t = opByte .clear (opByte .clear d t) s := by
  simp only [opByte, BitVec.and_assoc, BitVec.and_comm (~~~s)]

/-- Settles O30: one lemma per operator. -/
theorem operatorBits : Obligations.OperatorBits := fun d s i =>
  ⟨opByte_set_getLsbD d s i, opByte_clear_getLsbD d s i, opByte_over_getLsbD d s i⟩

/-- Settles O31: Set has the source as its result; a source of zeros is neutral for the two mask operators, one of ones
saturates them. -/
theorem operatorLaws : Obligations.OperatorLaws := fun d s t =>
  ⟨fun o => opByte_idem o d s, opByte_over_and_self d s, rfl, rfl,
    BitVec.and_allOnes, BitVec.or_zero, rfl, BitVec.and_zero, BitVec.or_allOnes, rfl,
    opByte_over_right_comm d s t, opByte_clear_right_comm d s t⟩

/-- Settles O29: `SETPIX` writes one byte, and the byte it writes is the operator's. -/
theorem setpixIsOverOrClearOfMask : Obligations.SetpixIsOverOrClearOfMask := fun _ _ _ _ _ => exec_setpix_read

/-! ## Marking pages again, and in another order (R117) -/

theorem DirtyRange.mark_mark_same (d : DirtyRange) (p : Fin 8) : (d.mark p).mark p = d.mark p := by
  have := p.isLt
  refine ext_toNat ?_ ?_
  · simp only [mark_fd]; grind
  · simp only [mark_fd, mark_ld]; grind

theorem DirtyRange.mark_right_comm (d : DirtyRange) (p q : Fin 8) : (d.mark p).mark q = (d.mark q).mark p := by
  have := p.isLt
  have := q.isLt
  refine ext_toNat ?_ ?_
  · simp only [mark_fd]; grind
  · simp only [mark_fd, mark_ld]; grind

/-! ## Painting after painting

A paint under `o'` followed by the same paint under `o` is the second paint alone when `o` forgets what `o'` did to each
byte. -/

/-- Two states that come from `s` by writing the store and the range are equal when these are. -/
theorem eq_of_fb_and_dirty {s t u : State} (ht : t = { s with fb := t.fb, dirty := t.dirty })
    (hu : u = { s with fb := u.fb, dirty := u.dirty }) (hfb : t.fb = u.fb) (hd : t.dirty = u.dirty) : t = u := by
  rw [ht, hu, hfb, hd]

/-- `o` gives the same byte whether or not `o'` composed the same source before it. -/
def Operator.Absorbs (o o' : Operator) : Prop := ∀ d b : Byte, opByte o (opByte o' d b) b = opByte o d b

/-- R104 (a). -/
theorem Operator.absorbs_self (o : Operator) : o.Absorbs o := opByte_idem o

/-- Set takes the source whatever the destination (R104 (c)). -/
theorem Operator.set_absorbs (o : Operator) : Operator.set.Absorbs o := fun _ _ => rfl

section
variable {o o' : Operator} {s : State} {x : Int}

theorem paintFull_absorb (h : o.Absorbs o') (hwf : s.fb.wf 1024) (img : ImgAddr) :
    paintFull o img (paintFull o' img s) = paintFull o img s := by
  have hfb : (paintFull o img (paintFull o' img s)).fb = (paintFull o img s).fb := by
    refine Memory.ext_of_wf (Memory.wf_wholeStore (Memory.wf_wholeStore hwf _) _) (Memory.wf_wholeStore hwf _) fun a => ?_
    simp only [paintFull_read, imgData_congr (paintFull_imem o' img s)]
    split
    · exact h ..
    · rfl
  exact eq_of_fb_and_dirty (s := s) rfl rfl hfb rfl

theorem paintPage_absorb (h : o.Absorbs o') (hwf : s.fb.wf 1024) (f : Byte → Byte) (img : ImgAddr) (hx : x ≤ 127)
    (p : Fin 8) : paintPage o f img x p (paintPage o' f img x p s) = paintPage o f img x p s := by
  have hfb : (paintPage o f img x p (paintPage o' f img x p s)).fb = (paintPage o f img x p s).fb := by
    refine Memory.ext_of_wf (paintPage_wf (paintPage_wf hwf o' f img hx p) o f img hx p)
      (paintPage_wf hwf o f img hx p) fun a => ?_
    have him : (paintPage o' f img x p s).imem = s.imem := rfl
    simp only [paintPage_read, imgWidth_congr him, imgData_congr him]
    split
    · exact h ..
    · rfl
  exact eq_of_fb_and_dirty (s := s) rfl rfl hfb (s.dirty.mark_mark_same p)

/-- Two pages share no byte of the store, so they may be painted in either order. -/
theorem paintPage_comm (hwf : s.fb.wf 1024) (f f' : Byte → Byte) (img : ImgAddr) (hx : x ≤ 127) {p q : Fin 8}
    (hpq : p ≠ q) : paintPage o f img x p (paintPage o' f' img x q s) =
      paintPage o' f' img x q (paintPage o f img x p s) := by
  have hfb : (paintPage o f img x p (paintPage o' f' img x q s)).fb =
      (paintPage o' f' img x q (paintPage o f img x p s)).fb := by
    refine Memory.ext_of_wf (paintPage_wf (paintPage_wf hwf o' f' img hx q) o f img hx p)
      (paintPage_wf (paintPage_wf hwf o f img hx p) o' f' img hx q) fun a => ?_
    have himq : (paintPage o' f' img x q s).imem = s.imem := rfl
    have himp : (paintPage o f img x p s).imem = s.imem := rfl
    have hend : clipEnd x (imgWidth s img) ≤ 128 := by unfold clipEnd; omega
    have hne := Fin.val_ne_of_ne hpq
    simp only [paintPage_read, imgWidth_congr himq, imgData_congr himq, imgWidth_congr himp, imgData_congr himp]
    by_cases hp : p * 128 + clipFirst x ≤ a ∧ a < p * 128 + clipEnd x (imgWidth s img)
    · rw [if_pos hp, if_pos hp, if_neg (by omega), if_neg (by omega)]
    · rw [if_neg hp, if_neg hp]
  exact eq_of_fb_and_dirty (s := s) rfl rfl hfb (s.dirty.mark_right_comm q p)

theorem paintPageAt_absorb (h : o.Absorbs o') (hwf : s.fb.wf 1024) (f : Byte → Byte) (img : ImgAddr) (hx : x ≤ 127)
    (n : Int) : paintPageAt o f img x n (paintPageAt o' f img x n s) = paintPageAt o f img x n s := by
  by_cases hn : 0 ≤ n ∧ n ≤ 7
  · simp only [paintPageAt_on hn, paintPage_absorb h hwf f img hx]
  · simp only [paintPageAt_off hn]

theorem paintPageAt_comm (hwf : s.fb.wf 1024) (f f' : Byte → Byte) (img : ImgAddr) (hx : x ≤ 127) {n m : Int}
    (hnm : n ≠ m) : paintPageAt o f img x n (paintPageAt o' f' img x m s) =
      paintPageAt o' f' img x m (paintPageAt o f img x n s) := by
  by_cases hn : 0 ≤ n ∧ n ≤ 7
  · by_cases hm : 0 ≤ m ∧ m ≤ 7
    · simp only [paintPageAt_on hn, paintPageAt_on hm]
      exact paintPage_comm hwf f f' img hx (by simp only [ne_eq, Fin.mk.injEq]; omega)
    · simp only [paintPageAt_off hm]
  · simp only [paintPageAt_off hn]

/-- The first paint of the lower page is moved next to the second one, past the upper page. -/
theorem paintMisaligned_absorb (h : o.Absorbs o') (hwf : s.fb.wf 1024) (img : ImgAddr) (hx : x ≤ 127) (y : Int) :
    paintMisaligned o img x y (paintMisaligned o' img x y s) = paintMisaligned o img x y s := by
  have hup (o : Operator) {t : State} (ht : t.fb.wf 1024) :=
    paintPageAt_wf ht o (fun b => b >>> shiftRem y) img hx (firstRow y)
  unfold paintMisaligned
  rw [paintPageAt_comm (hup o' hwf) _ _ img hx (by omega), paintPageAt_absorb h (hup o (hup o' hwf)) _ img hx,
    paintPageAt_absorb h hwf _ img hx]

/-- Both paints take the same path, which depends on the operands and the image memory only (R132, R133). -/
theorem paint_absorb (h : o.Absorbs o') (hwf : s.fb.wf 1024) (img : ImgAddr) (x y : Int) :
    paint o img x y (paint o' img x y s) = paint o img x y s := by
  have him := (paint_frame o' img x y s).imem
  generalize ht : paint o' img x y s = t at him ⊢
  simp only [paint, imgWidth_congr him, imgHeight_congr him] at ht ⊢
  by_cases hoff : offScreen x y (imgWidth s img) (imgHeight s img) = true
  · rw [if_pos hoff] at ht
    rw [ht]
  · have hx : x ≤ 127 := (offScreen_eq_false.mp (by simpa using hoff)).2.1
    rw [if_neg hoff] at ht
    rw [if_neg hoff, if_neg hoff]
    split_ifs at ht ⊢ <;> subst ht
    · exact paintFull_absorb h hwf img
    · exact paintPageAt_absorb h hwf id img hx (y / 8)
    · exact paintMisaligned_absorb h hwf img hx y
    · rfl

end

/-- The paint command of an operator is `Paint` with it (R140 to R142). -/
theorem exec_paintInstr (o : Operator) (img : ImgAddr) (x y : BitVec 16) (s : State) :
    exec (paintInstr o img x y) s = .next (paint o img (sext16 x) (sext16 y) s) := by
  cases o <;> rfl

/-- A paint command after another with the same operands, when its operator forgets the other's. -/
theorem exec_paintInstr_absorb {o o' : Operator} (h : o.Absorbs o') (img : ImgAddr) (x y : BitVec 16) {s t : State}
    (hwf : s.fb.wf 1024) (ht : exec (paintInstr o' img x y) s = .next t) :
    exec (paintInstr o img x y) t = exec (paintInstr o img x y) s := by
  rw [exec_paintInstr] at ht
  obtain rfl := Host.Outcome.next.inj ht
  rw [exec_paintInstr, exec_paintInstr, paint_absorb h hwf]

/-- Settles O39: every operator is idempotent on a byte, and marking is. -/
theorem paintTwiceEqualsOnce : Obligations.PaintTwiceEqualsOnce := fun o img x y _ _ hwf ht =>
  (exec_paintInstr_absorb o.absorbs_self img x y hwf ht).trans ht

/-- Settles O40: Set forgets what Clear did to a byte, and both mark the same pages. -/
theorem clrimgThenDrawEqualsDraw : Obligations.ClrimgThenDrawEqualsDraw := fun img x y _ _ hwf ht =>
  exec_paintInstr_absorb (o := .set) (o' := .clear) (Operator.set_absorbs _) img x y hwf ht

/-! ## BLEND keeps bits -/

theorem paintPageAt_over_keeps_bit (f : Byte → Byte) (img : ImgAddr) (x n : Int) {s : State} {a j : Nat}
    (h : (s.fb.read a).getLsbD j = true) : ((paintPageAt .over f img x n s).fb.read a).getLsbD j = true := by
  by_cases hn : 0 ≤ n ∧ n ≤ 7
  · rw [paintPageAt_on hn, paintPage_read]
    split
    · exact opByte_over_getLsbD_of_getLsbD h _
    · exact h
  · rwa [paintPageAt_off hn]

theorem paint_over_keeps_bit (img : ImgAddr) (x y : Int) {s : State} {a j : Nat}
    (h : (s.fb.read a).getLsbD j = true) : ((paint .over img x y s).fb.read a).getLsbD j = true := by
  rcases paint_cases .over img x y s with ⟨-, e⟩ | ⟨-, ⟨-, e⟩ | ⟨-, e⟩ | ⟨-, e⟩ | ⟨-, e⟩⟩ <;> rw [e]
  · exact h
  · rw [paintFull_read]
    split
    · exact opByte_over_getLsbD_of_getLsbD h _
    · exact h
  · exact paintPageAt_over_keeps_bit id img x _ h
  · exact paintPageAt_over_keeps_bit _ img x _ (paintPageAt_over_keeps_bit _ img x _ h)
  · exact h

/-- Settles O41: on every path of `Paint`. -/
theorem blendNeverClearsABit : Obligations.BlendNeverClearsABit := by
  intro img x y s t h a j hbit
  obtain rfl := Host.Outcome.next.inj h
  exact paint_over_keeps_bit img _ _ hbit

/-! ## The misaligned path byte by byte and bit by bit -/

/-- R136, R137 with the clip of R138: the store after the misaligned path, by page and column. -/
theorem paintMisaligned_read (o : Operator) (img : ImgAddr) {x y : Int} (s : State) {q c : Nat} (hc : c < 128)
    (hx : x ≤ 127) (hy : y ≤ 63) : (paintMisaligned o img x y s).fb.read (q * 128 + c) =
      if max x 0 ≤ (c : Int) ∧ (c : Int) < min (x + imgWidth s img) 128 then
        if (q : Int) = firstRow y then
          opByte o (s.fb.read (q * 128 + c)) (imgData s img ((c : Int) - x).toNat >>> shiftRem y)
        else if (q : Int) = firstRow y + 1 ∧ q ≤ 7 then
          opByte o (s.fb.read (q * 128 + c)) (imgData s img ((c : Int) - x).toNat <<< (8 - shiftRem y))
        else s.fb.read (q * 128 + c)
      else s.fb.read (q * 128 + c) := by
  have hfr : firstRow y ≤ 7 := by unfold firstRow; split <;> omega
  have him := (paintPageAt_frame o (fun b => b >>> shiftRem y) img x (firstRow y) s).1.imem
  have hupper := paintPageAt_read o (fun b => b >>> shiftRem y) img s (q := q) hc hfr hx
  unfold paintMisaligned
  by_cases hlow : firstRow y + 1 ≤ 7
  · rw [paintPageAt_read o _ img _ hc hlow hx, imgWidth_congr him, imgData_congr him, hupper]
    grind
  · rw [paintPageAt_off (by omega), hupper]
    grind

/-- A misaligned geometry on screen takes the misaligned path (R133). -/
theorem paint_of_misaligned {o : Operator} {img : ImgAddr} {x y : Int} {s : State}
    (hs : offScreen x y (imgWidth s img) (imgHeight s img) = false) (h8 : imgHeight s img = 8) (hy : y % 8 ≠ 0) :
    paint o img x y s = paintMisaligned o img x y s := by
  rw [h8] at hs
  simp [paint, hs, h8, hy]

/-- R136: for a misaligned `y` the remainder is that of `y` itself. -/
theorem shiftRem_eq (y : Int) : shiftRem y = (y % 8).toNat := by
  unfold shiftRem
  omega

/-- R137: a byte shifted right by `rem`, bit by bit. -/
theorem getLsbD_ushiftRight_byte (b : Byte) (j rem : Nat) :
    (b >>> rem).getLsbD j = (decide (j + rem < 8) && b.getLsbD (j + rem)) := by
  rw [BitVec.getLsbD_ushiftRight, Nat.add_comm]
  by_cases h : j + rem < 8
  · simp [h]
  · simp [h, BitVec.getLsbD_of_ge b (j + rem) (Nat.le_of_not_lt h)]

/-- R137: a byte shifted left by `8 - rem`, bit by bit. -/
theorem getLsbD_shiftLeft_byte (b : Byte) {j rem : Nat} (hj : j < 8) (hrem : rem ≤ 8) :
    (b <<< (8 - rem)).getLsbD j = (decide (8 ≤ j + rem) && b.getLsbD (j + rem - 8)) := by
  rw [BitVec.getLsbD_shiftLeft, show j - (8 - rem) = j + rem - 8 by omega]
  have hlt : j < 8 - rem ↔ ¬ 8 ≤ j + rem := by omega
  simp only [hj, hlt, decide_true, decide_not, Bool.not_not, Bool.true_and]

/-- Settles O36: Set leaves the shifted source byte in the two pages, and each shift moves its bits and brings in
zeros. -/
theorem misalignedDrawBits : Obligations.MisalignedDrawBits := by
  intro img x y s t c q j hy h8 hmis hvisible hc hxc hcw hj ht
  obtain rfl := Host.Outcome.next.inj ht
  have hs : offScreen (sext16 x) (sext16 y) (imgWidth s img) (imgHeight s img) = false :=
    offScreen_eq_false.mpr (by omega)
  rw [paint_of_misaligned hs h8 hmis, paintMisaligned_read .set img s hc (by omega) hy, if_pos (by omega), shiftRem_eq]
  refine ⟨fun hpos hq => ?upper, fun h7 hq => ?lower⟩
  case upper =>
    have hpage : (q : Int) = firstRow (sext16 y) := by unfold firstRow; omega
    rw [if_pos hpage, opByte]
    exact getLsbD_ushiftRight_byte ..
  case lower =>
    have hpage : (q : Int) = firstRow (sext16 y) + 1 := by unfold firstRow; omega
    rw [if_neg (by omega), if_pos ⟨hpage, h7⟩, opByte]
    exact getLsbD_shiftLeft_byte _ hj (by omega)

end Sys2Proof.Machine
end

section
/-! PROOFS. Scope: `INVAL`, `MARK`, `CLEAR` and `FLUSH`: the range and the store they leave, the transfer a dirty `FLUSH`
hands over, and which steps take pages out of the range. -/

namespace Sys2Proof.Machine

/-! ## What the commands do -/

theorem exec_inval (s : State) : exec .inval s = .next (invalidate s) := rfl

theorem exec_mark (page : BitVec 3) (s : State) : exec (.mark page) s = .next (markDirty (pageOperand page) s) := rfl

theorem exec_clear (s : State) :
    exec .clear s = .next (invalidate (updateStore 0 0 Config.fbBytes (fun _ _ => 0x00#8) s)) := rfl

/-! ## The dirty range -/

/-- R24: the test for dirty reads `FD` alone. -/
theorem DirtyRange.isClean_eq_false_iff {d : DirtyRange} : d.isClean = false ↔ d.fd.toNat ≤ 7 := by
  simp [isClean]

@[simp] theorem isDirty_invalidate (s : State) : isDirty (invalidate s) = true := rfl

/-- A marked range is never clean. -/
@[simp] theorem isDirty_markDirty (p : Fin 8) (s : State) : isDirty (markDirty p s) = true := by
  have := p.isLt
  rw [isDirty_iff, markDirty_dirty, DirtyRange.mark_fd]
  split <;> omega

/-- Marking a page of the range again changes nothing. -/
theorem DirtyRange.mark_of_covers {d : DirtyRange} {p : Fin 8} (h : d.covers p) : d.mark p = d := by
  obtain ⟨hfd, hld⟩ := h
  have hdirty : ¬ 7 < d.fd.toNat := by omega
  refine ext_toNat ?_ ?_
  · rw [mark_fd, if_neg hdirty, Nat.min_eq_left hfd]
  · rw [mark_ld, if_neg hdirty, Nat.max_eq_left hld]

/-- No step but a completion takes a page out of the range. -/
theorem covers_of_step {s t : State} (h : step s = .next t) (hc : ∀ tr, ¬ Completes s tr) {p : Nat} (hp : p < 8)
    (hs : s.dirty.covers p) : t.dirty.covers p := by
  cases step_effect h with
  | reset hr ht => simpa only [ht, resetEngine_dirty] using DirtyRange.covers_full hp
  | waiting hr tr hphase ha ht => simpa only [ht, takeSinkAnswer_dirty, takeRstSample_dirty] using hs
  | completion tr hcomp ht => exact absurd hcomp (hc tr)
  | flushStart htake hd ht =>
    simpa only [ht, startFlush_dirty, takeHostWord_dirty, takeRstSample_dirty] using hs
  | service hr hphase hm => exact hm.grows p hp hs

/-! ## The bytes a `FLUSH` hands over -/

/-- Every byte of pages `f` to `l` is a byte of the store below the end of page `l`. -/
theorem exists_read_of_mem_pageBytes {fb : Memory} {f l : Nat} {b : Byte} (h : b ∈ pageBytes fb f l) :
    ∃ a < (l + 1) * 128, fb.read a = b := by
  obtain ⟨k, hk, rfl⟩ := List.getElem_of_mem h
  have hlen := pageBytes_length fb f l
  exact ⟨f * 128 + k, by omega, (pageBytes_getElem hk).symm⟩

/-- R116: a `FLUSH` of the full range hands over the whole store. -/
theorem exec_flush_of_full {s : State} (h : s.dirty = .full) :
    exec .flush s = .next { s with phase := .flushing ⟨0#3, 7#3, pageBytes s.fb 0 7⟩ } := by
  rw [exec_flush_of_dirty (by rw [h]; rfl), startFlush, flushTransfer, h]
  rfl

/-! ## The obligations -/

/-- Settles O15: from the two ends of a marked range (`mark_fd`, `mark_ld`). -/
theorem markExtendsRange : Obligations.MarkExtendsRange := by
  refine fun page s => ⟨_, exec_mark page s, rfl, isDirty_markDirty _ s, fun hclean => ?_, fun hdirty => ?_,
    fun hcov => ?_⟩
  · rw [markDirty_dirty, DirtyRange.mark_fd, DirtyRange.mark_ld, if_pos hclean, if_pos hclean]
    exact ⟨rfl, rfl⟩
  · rw [markDirty_dirty, DirtyRange.mark_fd, DirtyRange.mark_ld, if_neg (by omega), if_neg (by omega)]
    exact ⟨rfl, rfl⟩
  · rw [markDirty, DirtyRange.mark_of_covers (p := pageOperand page) hcov]

/-- Settles O16: `MARK` acts on the range alone, and there marking is growing, idempotent and commutative. -/
theorem markingLaws : Obligations.MarkingLaws := by
  intro p q s a b ha hb
  obtain rfl := Host.Outcome.next.inj ha
  obtain rfl := Host.Outcome.next.inj hb
  refine ⟨fun k hk hs => DirtyRange.covers_mark (.inl ⟨hs, hk⟩), DirtyRange.covers_mark (.inr rfl), ?again, ?swap⟩
  case again => simp only [exec_mark, markDirty, DirtyRange.mark_mark_same]
  case swap => simp only [exec_mark, markDirty, DirtyRange.mark_right_comm s.dirty (pageOperand p)]

/-- Settles O17: by the kinds of step. -/
theorem onlyCompletionShrinksRange : Obligations.OnlyCompletionShrinksRange := fun _ _ h hc _ => covers_of_step h hc

/-- Settles O19: the loop of `CLEAR` covers the whole store, so that every byte the `FLUSH` hands over is one it
zeroed. -/
theorem clearZeroesStore : Obligations.ClearZeroesStore := by
  intro s
  have hzero : ∀ a < 1024, Memory.read (s.fb.updateRun 0 0 (fun _ _ => 0x00#8) Config.fbBytes) a = 0x00#8 :=
    fun a ha => by rw [Memory.read_wholeStore, if_pos ha]
  refine ⟨_, exec_clear s, rfl, hzero, fun a ha => ?_, rfl, rfl, isDirty_invalidate _, _, exec_flush_of_full rfl,
    rfl, rfl, by rw [pageBytes_length], fun b hb => ?_⟩
  · rw [invalidate_fb, updateStore_fb, Memory.read_wholeStore, if_neg (by omega)]
  · dsimp only at hb
    obtain ⟨a, ha, rfl⟩ := exists_read_of_mem_pageBytes hb
    exact hzero a ha

/-- Settles O21: the start is `startFlush`, whose transfer is the range and its bytes (`startFlush_inFlight`); the
sink's answer then decides between the completion and a waiting step. -/
theorem flushWhenDirtyStartsAndCompletes : Obligations.FlushWhenDirtyStartsAndCompletes := by
  refine ⟨fun s hdirty => ?start, fun s tr hc => ?completion, fun s tr hr hp ha => ?waiting⟩
  case start =>
    have hd := DirtyRange.isClean_eq_false_iff.mpr hdirty
    obtain ⟨⟨-, hlen⟩, hfirst, hlast, hbytes⟩ :=
      (State.inFlight_iff_of_flushing (startFlush_phase s)).mp (startFlush_inFlight hd)
    rw [startFlush_dirty] at hfirst hlast
    refine ⟨flushTransfer s, exec_flush_of_dirty hd, rfl, hfirst, hlast, hfirst ▸ hlast ▸ hlen, fun k hk => ?_⟩
    rw [List.getElem?_eq_getElem hk]
    exact congrArg some (pageBytes_getElem hk)
  case completion => exact ⟨_, step_completes hc, rfl, rfl, rfl, by simp, rfl, rfl⟩
  case waiting => exact ⟨_, step_waits hr hp ha, by simpa using hp, by simp, by simp⟩

/-- Settles O14: `INVAL` is `invalidate`, which writes the full range and nothing else. -/
theorem invalMarksEveryPage : Obligations.InvalMarksEveryPage := fun s =>
  ⟨_, exec_inval s, rfl, rfl, rfl, isDirty_invalidate s⟩

/-- Settles O20: `FD > 7` is the clean range, with which `FLUSH` starts nothing. -/
theorem flushWhenCleanDoesNothing : Obligations.FlushWhenCleanDoesNothing := fun s h =>
  exec_flush_of_clean (s.dirty.isClean_iff.mp (decide_eq_true h))

end Sys2Proof.Machine
end

section
/-! PROOFS. Scope: `DRAW`, `CLRIMG`, `BLEND` path by path: which operands take which path of `Paint`, and what the path
makes of the store, the dirty range and `UNSUP`. -/

namespace Sys2Proof.Machine

section
variable {o : Operator} {img : ImgAddr} {x y : Int} {s t : State}

/-! ## Which path is taken (R132, R133); `paint_of_misaligned` is the fourth -/

theorem offScreen_eq_true {w h : Nat} :
    offScreen x y w h = true ↔ y > 63 ∨ x > 127 ∨ x + w ≤ 0 ∨ y + h ≤ 0 := decide_eq_true_iff

theorem paint_of_offScreen (h : offScreen x y (imgWidth s img) (imgHeight s img) = true) : paint o img x y s = s :=
  if_pos h

/-- The full-screen geometry is on screen. -/
theorem paint_of_fullScreen (hx : x = 0) (hy : y = 0) (hw : imgWidth s img = 128) (hh : imgHeight s img = 64) :
    paint o img x y s = paintFull o img s := by
  subst hx hy
  have hs : offScreen 0 0 128 64 = false := by decide
  simp [paint, hs, hw, hh]

theorem paint_of_aligned (hs : offScreen x y (imgWidth s img) (imgHeight s img) = false) (h8 : imgHeight s img = 8)
    (hy : y % 8 = 0) : paint o img x y s = paintAligned o img x y s := by
  rw [h8] at hs
  simp [paint, hs, h8, hy]

theorem paint_of_unsupported (hs : offScreen x y (imgWidth s img) (imgHeight s img) = false)
    (h8 : imgHeight s img ≠ 8) (hfull : ¬(x = 0 ∧ y = 0 ∧ imgWidth s img = 128 ∧ imgHeight s img = 64)) :
    paint o img x y s = raise .unsupported s := by
  simp [paint, hs, h8, hfull]

/-! ## What a path makes of the state -/

/-- The fields of `PaintFrame`, put together as one update of the state. -/
theorem PaintFrame.eq_update (h : PaintFrame s t) : t = { s with fb := t.fb, dirty := t.dirty, unsup := t.unsup } := by
  obtain ⟨hill, hphase, himem, hhost, hrst, hsink, hwaits, hhistory⟩ := h
  rw [← hill, ← hphase, ← himem, ← hhost, ← hrst, ← hsink, ← hwaits, ← hhistory]

/-- R136: on screen the upper page is at most the last one. -/
theorem firstRow_bounds (h : y ≤ 63) : -1 ≤ firstRow y ∧ firstRow y ≤ 7 := by
  unfold firstRow
  omega

theorem paintPageAt_page (o : Operator) (f : Byte → Byte) (img : ImgAddr) (x : Int) (p : Fin 8) (s : State) :
    paintPageAt o f img x p s = paintPage o f img x p s := by
  have := p.isLt
  exact paintPageAt_on (by omega) o f img x s

/-- R135, R137: a page that is painted is marked. -/
theorem paintPageAt_dirty {n : Int} {p : Fin 8} (h : (p : Int) = n) (o : Operator) (f : Byte → Byte) (img : ImgAddr)
    (x : Int) (s : State) : (paintPageAt o f img x n s).dirty = s.dirty.mark p := by
  rw [← h, paintPageAt_page]
  rfl

theorem paintMisaligned_unsup (o : Operator) (img : ImgAddr) (x y : Int) (s : State) :
    (paintMisaligned o img x y s).unsup = s.unsup :=
  (paintPageAt_frame ..).2.trans (paintPageAt_frame ..).2

/-- The misaligned path writes the store and the range only. -/
theorem paintMisaligned_eq_update (hpath : paint o img x y s = paintMisaligned o img x y s) :
    paintMisaligned o img x y s =
      { s with fb := (paintMisaligned o img x y s).fb, dirty := (paintMisaligned o img x y s).dirty } := by
  have h := (hpath ▸ paint_frame o img x y s).eq_update
  rwa [paintMisaligned_unsup] at h

/-- No paint clears `UNSUP`. -/
theorem paint_unsup_of_unsup (h : s.unsup = true) : (paint o img x y s).unsup = true := by
  rcases paint_cases o img x y s with ⟨-, e⟩ | ⟨-, ⟨-, e⟩ | ⟨-, e⟩ | ⟨-, e⟩ | ⟨-, e⟩⟩ <;> rw [e]
  · exact h
  · exact h
  · exact (paintPageAt_frame ..).2.trans h
  · exact (paintMisaligned_unsup ..).trans h
  · rfl

/-! ## Where a byte can change -/

section
variable {q c : Nat}

/-- R135, R138: the page-aligned path changes bytes of page `y div 8` in the clipped columns only. -/
theorem paintAligned_page_of_read_ne (hc : c < 128) (hx : x ≤ 127) (hy : y ≤ 63)
    (hne : (paintAligned o img x y s).fb.read (q * 128 + c) ≠ s.fb.read (q * 128 + c)) :
    (q : Int) = y / 8 ∧ max x 0 ≤ (c : Int) ∧ (c : Int) < min (x + imgWidth s img) 128 := by
  rw [paintAligned, paintPageAt_read o id img s hc (by omega) hx] at hne
  exact of_not_not fun h => hne (if_neg h)

/-- R136 to R138: the misaligned path changes bytes of the two pages that the rows `y` and `y + 7` lie in, in the
clipped columns only. -/
theorem paintMisaligned_page_of_read_ne (hc : c < 128) (hx : x ≤ 127) (hy : y ≤ 63) (hvisible : 0 < y + 8)
    (hmis : y % 8 ≠ 0)
    (hne : (paintMisaligned o img x y s).fb.read (q * 128 + c) ≠ s.fb.read (q * 128 + c)) :
    ((q : Int) = y / 8 ∨ (q : Int) = (y + 7) / 8) ∧
      max x 0 ≤ (c : Int) ∧ (c : Int) < min (x + imgWidth s img) 128 := by
  rw [paintMisaligned_read o img s hc hx hy] at hne
  have hclip := of_not_not fun h => hne (if_neg h)
  rw [if_pos hclip] at hne
  refine ⟨?_, hclip⟩
  have hrows : firstRow y = y / 8 ∧ firstRow y + 1 = (y + 7) / 8 ∨ firstRow y = -1 ∧ (y + 7) / 8 = 0 := by
    unfold firstRow
    omega
  by_cases hup : (q : Int) = firstRow y
  · exact .inl (by omega)
  · rw [if_neg hup] at hne
    obtain ⟨hlow, -⟩ := of_not_not fun h => hne (if_neg h)
    exact .inr (by omega)

end

/-- A byte that a paint changes: `UNSUP` stays, and unless the geometry is full screen the byte lies under the image. -/
theorem paint_of_read_ne {a : Nat} (hne : (paint o img x y s).fb.read a ≠ s.fb.read a) :
    (paint o img x y s).unsup = s.unsup ∧
      ((x = 0 ∧ y = 0 ∧ imgWidth s img = 128 ∧ imgHeight s img = 64) ∨
       (imgHeight s img = 8 ∧ max x 0 ≤ ((a % 128 : Nat) : Int) ∧
         ((a % 128 : Nat) : Int) < min (x + imgWidth s img) 128 ∧
         (((a / 128 : Nat) : Int) = y / 8 ∨ ((a / 128 : Nat) : Int) = (y + 7) / 8))) := by
  have hc : a % 128 < 128 := Nat.mod_lt a (by decide)
  rcases paint_cases o img x y s with ⟨-, e⟩ | ⟨hs, ⟨hfull, e⟩ | ⟨⟨h8, -⟩, e⟩ | ⟨⟨h8, hmis⟩, e⟩ | ⟨-, e⟩⟩ <;>
    rw [e] at hne ⊢
  · exact absurd rfl hne
  · exact ⟨rfl, .inl hfull⟩
  · obtain ⟨hy, hx, -, -⟩ := offScreen_eq_false.mp hs
    rw [← Nat.div_add_mod' a 128] at hne
    obtain ⟨hpage, hlo, hhi⟩ := paintAligned_page_of_read_ne hc hx hy hne
    exact ⟨(paintPageAt_frame ..).2, .inr ⟨h8, hlo, hhi, .inl hpage⟩⟩
  · obtain ⟨hy, hx, -, hvisible⟩ := offScreen_eq_false.mp hs
    rw [← Nat.div_add_mod' a 128] at hne
    obtain ⟨hpage, hlo, hhi⟩ := paintMisaligned_page_of_read_ne hc hx hy (by omega) hmis hne
    exact ⟨paintMisaligned_unsup .., .inr ⟨h8, hlo, hhi, hpage⟩⟩
  · exact absurd rfl hne

end

/-! ## The obligations -/

/-- Settles O33: the loop over the whole store (`paintFull_read`), then every page marked. -/
theorem paintFullScreen : Obligations.PaintFullScreen := by
  intro o img x y s hx hy hw hh
  refine ⟨paintFull o img s, ?_, rfl, fun a ha => ?_, fun a ha => ?_, rfl, rfl⟩
  · rw [exec_paintInstr, paint_of_fullScreen hx hy hw hh]
  · rw [paintFull_read, if_pos ha]
  · rw [paintFull_read, if_neg (by omega)]

/-- Settles O34: the image lies on one page of the display, and the path paints that page. -/
theorem paintPageAligned : Obligations.PaintPageAligned := by
  intro o img x y s hy hx hw hh h8 hal
  obtain ⟨p, hp⟩ : ∃ p : Fin 8, (p : Int) = sext16 y / 8 := ⟨⟨(sext16 y / 8).toNat, by omega⟩, by simp only; omega⟩
  have hs := offScreen_eq_false.mpr ⟨hy, hx, hw, hh⟩
  refine ⟨paintPage o id img (sext16 x) p s, p, hp, ?_, rfl, fun q c hc => ?_⟩
  · rw [exec_paintInstr, paint_of_aligned hs h8 hal, paintAligned, ← hp, paintPageAt_page]
  · rw [← paintPageAt_page, paintPageAt_read o id img s hc (by omega) hx]
    simp only [Int.natCast_inj, id_eq]

/-- Settles O35: the store is that of `paintMisaligned_read`; the pages marked are those of `fr` and `fr + 1` that lie
on the display. -/
theorem paintMisalignedComposesTwoPages : Obligations.PaintMisaligned := by
  intro o img x y s fr rem hy hx hw hh h8 hmis hfr hrem
  have hpath := paint_of_misaligned (o := o) (offScreen_eq_false.mpr ⟨hy, hx, hw, hh⟩) h8 hmis
  obtain rfl : rem = shiftRem (sext16 y) := by unfold shiftRem; omega
  obtain rfl : fr = firstRow (sext16 y) := hfr
  obtain ⟨hlo, hhi⟩ := firstRow_bounds hy
  refine ⟨paintMisaligned o img (sext16 x) (sext16 y) s, ?_, paintMisaligned_eq_update hpath, hlo, hhi, by omega,
    by omega, fun q c hc => paintMisaligned_read o img s hc hx hy, fun p habove hp => ?lower,
    fun p q hp hq => ?both, fun p hlast hp => ?upper⟩
  · rw [exec_paintInstr, hpath]
  case lower => rw [paintMisaligned, paintPageAt_dirty (p := p) (by omega), paintPageAt_off (by omega)]
  case both => rw [paintMisaligned, paintPageAt_dirty hq, paintPageAt_dirty hp]
  case upper => rw [paintMisaligned, paintPageAt_off (by omega), paintPageAt_dirty (p := p) (by omega)]

/-- Settles O38: by the five outcomes of `Paint` (`paint_frame`, `paint_markedUpdate`, `paint_of_read_ne`). -/
theorem paintCompletesAndIsLocal : Obligations.PaintCompletesAndIsLocal := by
  intro o img x y s
  have hmarked := paint_markedUpdate o img (sext16 x) (sext16 y) s
  refine ⟨_, exec_paintInstr o img x y s, (paint_frame ..).eq_update, fun hclear => ?_, hmarked.grows, fun a hne => ?_⟩
  · exact Bool.eq_false_iff.mpr fun h => Bool.eq_false_iff.mp hclear (paint_unsup_of_unsup h)
  · obtain ⟨hlt, hcov⟩ := hmarked.marked a hne
    obtain ⟨hunsup, hwhere⟩ := paint_of_read_ne hne
    exact ⟨hlt, hunsup, hcov, hwhere⟩

/-- Settles O32: the test for off screen comes first. -/
theorem paintOffScreenChangesNothing : Obligations.PaintOffScreenChangesNothing := by
  intro o img x y s hoff
  rw [exec_paintInstr, paint_of_offScreen (offScreen_eq_true.mpr hoff)]

/-- Settles O37: no other path takes the geometry. -/
theorem paintUnsupportedSetsUnsup : Obligations.PaintUnsupportedSetsUnsup := by
  intro o img x y s hy hx hw hh h8 hfull
  rw [exec_paintInstr, paint_of_unsupported (offScreen_eq_false.mpr ⟨hy, hx, hw, hh⟩) h8 hfull]
  rfl

end Sys2Proof.Machine
end

section
/-! PROOFS. Scope: the host-side expansions of `DRAWNUMR` and `DRAWNUML` (spec/43_number_renderer.md R160 to R163). -/

namespace Sys2Proof.Machine

variable {v n : Nat}

/-- R160: a digit's glyph is the entry of `DIGITS` at that digit. -/
theorem glyphLine_mod (digits : Fin 10 → ImgAddr) (d : Nat) (x page : Int) : glyphLine digits (d % 10) x page =
    .draw ((digits ⟨d % 10, Nat.mod_lt d (by decide)⟩).toNat : Int) x (8 * page) := by
  simp only [glyphLine, Nat.mod_mod]

/-- A value of R160 has at most ten decimal digits. -/
theorem digitCount_le_ten (hv : v ≤ 4294967295) (h : 10 ^ (n - 1) ≤ v) : n ≤ 10 := by
  have hpow : 10 ^ (n - 1) < 10 ^ 10 := by omega
  have := (Nat.pow_lt_pow_iff_right (by decide)).mp hpow
  omega

/-! ## `DRAWNUMR` -/

theorem rightGlyphs_zero (digits : Fin 10 → ImgAddr) (page : Int) (turns : Nat) (x : Int) :
    rightGlyphs digits page turns 0 x = [] := by
  cases turns <;> rfl

theorem rightGlyphs_succ (digits : Fin 10 → ImgAddr) (page : Int) (turns : Nat) (hv : v ≠ 0) (x : Int) :
    rightGlyphs digits page (turns + 1) v x =
      glyphLine digits (v % 10) (x - 6) page :: rightGlyphs digits page turns (v / 10) (x - 6) :=
  if_neg hv

/-- R161: with turns enough, the loop draws the `n` digits of `v`, least significant first. -/
theorem rightGlyphs_eq_map (digits : Fin 10 → ImgAddr) (page : Int) {turns : Nat} {x : Int} (hturns : n ≤ turns)
    (hlt : v < 10 ^ n) (hge : n = 0 ∨ 10 ^ (n - 1) ≤ v) :
    rightGlyphs digits page turns v x =
      (List.range n).map fun k : Nat => glyphLine digits (v / 10 ^ k % 10) (x - 6 * ((k : Int) + 1)) page := by
  induction n generalizing turns v x with
  | zero =>
    obtain rfl : v = 0 := by simpa using hlt
    exact rightGlyphs_zero ..
  | succ n ih =>
    obtain ⟨turns, rfl⟩ : ∃ t, turns = t + 1 := ⟨turns - 1, by omega⟩
    have hpow : 10 ^ n ≤ v := hge.resolve_left (Nat.succ_ne_zero n)
    have hv : v ≠ 0 := Nat.ne_zero_of_lt (Nat.lt_of_lt_of_le (Nat.pow_pos (by decide)) hpow)
    have hlt' : v / 10 < 10 ^ n := Nat.div_lt_of_lt_mul (by rwa [← Nat.pow_succ'])
    have hge' : n = 0 ∨ 10 ^ (n - 1) ≤ v / 10 := by
      cases n with
      | zero => exact .inl rfl
      | succ m => exact .inr ((Nat.le_div_iff_mul_le (by decide)).mpr hpow)
    rw [rightGlyphs_succ digits page turns hv, ih (by omega) hlt' hge', List.range_succ_eq_map, List.map_cons,
      List.map_map]
    congr 1
    · simp
    · refine List.map_congr_left fun k _ => ?_
      simp only [Function.comp_apply, Nat.div_div_eq_div_mul, ← Nat.pow_succ', Nat.succ_eq_add_one, Nat.cast_add_one]
      congr 1
      ring

/-! ## `DRAWNUML` -/

/-- R162: the slots left of the value's `n` digits hold zero. -/
theorem bufDigit_eq_zero (hlt : v < 10 ^ n) {j : Nat} (hj : j + n < 10) : bufDigit v j = 0 := by
  have : v < 10 ^ (9 - j) := hlt.trans_le (Nat.pow_le_pow_right (by decide) (by omega))
  rw [bufDigit, Nat.div_eq_of_lt this]

/-- The leading digit of a value is not zero. -/
theorem bufDigit_leading_ne_zero (hn : 1 ≤ n) (hn10 : n ≤ 10) (hlt : v < 10 ^ n) (hge : 10 ^ (n - 1) ≤ v) :
    bufDigit v (10 - n) ≠ 0 := by
  have hslot : 9 - (10 - n) = n - 1 := by omega
  have hpos : 0 < v / 10 ^ (n - 1) := Nat.div_pos hge (Nat.pow_pos (by decide))
  have hdigit : v / 10 ^ (n - 1) < 10 :=
    Nat.div_lt_of_lt_mul (by rwa [← Nat.pow_succ, Nat.succ_eq_add_one, Nat.sub_add_cancel hn])
  rw [bufDigit, hslot, Nat.mod_eq_of_lt hdigit]
  exact hpos.ne'

/-- R162: the `n` digits of a value, 0 counting as one, fill the last `n` of the ten slots. -/
theorem firstSlot_eq (hn : 1 ≤ n) (hn10 : n ≤ 10) (hlt : v < 10 ^ n) (hge : n = 1 ∨ 10 ^ (n - 1) ≤ v) :
    firstSlot v = 10 - n := by
  have hcases : (n = 1 ∧ v = 0) ∨ 10 ^ (n - 1) ≤ v := by
    rcases hge with rfl | hge
    · exact v.eq_zero_or_pos.imp (⟨rfl, ·⟩) id
    · exact .inr hge
  obtain ⟨rfl, rfl⟩ | hge := hcases
  · decide
  · have hfind : (List.range 10).find? (fun j => decide (bufDigit v j ≠ 0)) = some (10 - n) := by
      refine List.find?_range_eq_some.mpr ⟨?_, ?_, fun j hj => ?_⟩
      · exact decide_eq_true (bufDigit_leading_ne_zero hn hn10 hlt hge)
      · exact List.mem_range.mpr (by omega)
      · simp [bufDigit_eq_zero hlt (show j + n < 10 by omega)]
    rw [firstSlot, hfind, Option.getD_some]

/-- Counted from the first slot, the `k`th digit is the one of weight `10 ^ (n - 1 - k)`. -/
theorem bufDigit_add (hn10 : n ≤ 10) (v k : Nat) : bufDigit v (10 - n + k) = v / 10 ^ (n - 1 - k) % 10 := by
  rw [bufDigit, show 9 - (10 - n + k) = n - 1 - k by omega]

/-! ## The obligations -/

/-- Settles O53: ten turns suffice for every value of R160, and the loop draws its digits (`rightGlyphs_eq_map`). -/
theorem drawnumrExpansion : Obligations.DrawnumrExpansion := by
  intro digits value n rightX page hv hlt hge
  have hn10 : n ≤ 10 := hge.elim (by omega) (digitCount_le_ten hv)
  simp only [expandRight, rightGlyphs_eq_map digits page hn10 hlt hge, glyphLine_mod]

/-- Settles O54: the first slot is that of the leading digit (`firstSlot_eq`). -/
theorem drawnumlExpansion : Obligations.DrawnumlExpansion := by
  intro digits value n leftX page hv hn hlt hge
  have hn10 : n ≤ 10 := hge.elim (by omega) (digitCount_le_ten hv)
  simp only [expandLeft, firstSlot_eq hn hn10 hlt hge, Nat.sub_sub_self hn10, bufDigit_add hn10, glyphLine_mod]

/-- Settles O52: the value 0 has no digits for `DRAWNUMR` and one for `DRAWNUML`. -/
theorem renderersDisagreeOnZero : Obligations.RenderersDisagreeOnZero := by
  intro digits x page
  constructor
  · exact drawnumrExpansion digits 0 0 x page (by decide) (by decide) (.inl rfl)
  · simpa using drawnumlExpansion digits 0 1 x page (by decide) (by decide) (by decide) (.inl rfl)

end Sys2Proof.Machine
end

section
/-! PROOFS. Scope: the outcome of `SETPIX` as a whole: the bit it writes, the bytes it keeps, the range it leaves
(spec/44_pixel_writer.md R170). -/

namespace Sys2Proof.Machine

/-- R170: whatever its operands and the state, `SETPIX` writes the one byte of its pixel, then invalidates. -/
theorem exec_setpix (on : Bool) (px : BitVec 7) (py : BitVec 6) (s : State) :
    ∃ v, exec (.setpix on px py) s = .next (invalidate (writeStore (pixelIndex px py) v s)) := ⟨_, rfl⟩

/-- Settles O27: the outcome is `exec_setpix`'s, with its frame and range; the byte at the pixel's index is the
operator's of the mask (`exec_setpix_read`), which differs from the old one in the pixel's bit only. -/
theorem setpixWritesOneBit : Obligations.SetpixWritesOneBit := by
  intro on px py s
  obtain ⟨v, h⟩ := exec_setpix on px py s
  refine ⟨_, h, rfl, pixelIndex_lt px py, fun j hj => ?bit, fun a ha => ?otherByte, rfl, rfl, isDirty_invalidate _⟩
  case bit =>
    have hbyte := (exec_setpix_read h (pixelIndex px py)).trans (if_pos rfl)
    exact (congrArg (·.getLsbD j) hbyte).trans (opByte_pixelMask_getLsbD on _ py hj)
  case otherByte => exact (exec_setpix_read h a).trans (if_neg ha)

end Sys2Proof.Machine
end

section
/-! PROOFS. Scope: the display port: a flush that waits, a flush that completes, where transfers come from, and a transfer
as beats (spec/45_display_port.md R180 to R185). -/

namespace Sys2Proof.Machine

section
variable {s t : State} {tr : Transfer}

/-! ## Waiting and completing -/

/-- R184: `n` steps at which the sink does not complete use up their samples of `rst` and their answers of the sink, and
change nothing else. -/
theorem run_flushing_waits {rest : List Bool} (n : Nat) (hp : s.phase = .flushing tr)
    (hr : ∀ b ∈ s.rst.take n, b = false) (hk : s.sink = List.replicate n false ++ rest) :
    core.run n s = .next { s with rst := s.rst.drop n, sink := rest } := by
  induction n generalizing s with
  | zero =>
    obtain rfl : s.sink = rest := hk
    rfl
  | succ n ih =>
    obtain ⟨hr0, hr⟩ := rstSample_and_tail_of_take_succ hr
    rw [List.replicate_succ, List.cons_append] at hk
    rw [run_succ_of_step (step_waits hr0 hp (sinkAnswer_cons hk)), takeSinkAnswer_takeRstSample hk, ← List.drop_tail]
    exact ih hp hr rfl

/-! ## Where a transfer comes from -/

/-- R181: a transfer in flight names pages of the store, in order, and carries their bytes, ascending. -/
theorem Transfer.carriesPages_of_inFlight (hfly : t.inFlight) (hp : t.phase = .flushing tr) :
    tr.first.toNat ≤ tr.last.toNat ∧ tr.last.toNat ≤ 7 ∧
      tr.bytes.length = (tr.last.toNat - tr.first.toNat + 1) * 128 ∧
      ∀ k < tr.bytes.length, tr.bytes[k]? = some (t.fb.read (tr.first.toNat * 128 + k)) := by
  obtain ⟨⟨hle, hlen⟩, -, -, hbytes⟩ := (State.inFlight_iff_of_flushing hp).mp hfly
  refine ⟨hle, Nat.le_of_lt_succ tr.last.isLt, hlen, fun k hk => ?_⟩
  rw [hbytes] at hk ⊢
  rw [List.getElem?_eq_getElem hk, pageBytes_getElem hk]

/-- R116, R181: a step leaves a transfer in flight only if it was in flight before or the step takes a dirty `FLUSH`. -/
theorem flushing_or_takes_flush_of_step (h : step s = .next t) (hp : t.phase = .flushing tr) :
    s.phase = .flushing tr ∨ (Takes s .flush ∧ isDirty s = true) := by
  cases step_effect h with
  | reset hr ht => simp [ht] at hp
  | waiting hr tr' hphase ha ht => exact .inl (by simpa [ht] using hp)
  | completion tr' hc ht => simp [ht] at hp
  | flushStart htake hd ht => exact .inr ⟨htake, by simp [isDirty, hd]⟩
  | service hr hphase hm => exact .inl (hm.phase.symm.trans hp)

/-- R183, R222: the sequence of completed transfers grows only by a transfer that completes. -/
theorem sent_of_step (h : step s = .next t) : t.sent = s.sent ∨ ∃ tr, Completes s tr ∧ t.sent = s.sent ++ [tr] := by
  cases step_effect h with
  | reset hr ht => exact .inl (by simp [ht])
  | waiting hr tr hp ha ht => exact .inl (by simp [ht])
  | completion tr hc ht => exact .inr ⟨tr, hc, by simp [ht]⟩
  | flushStart htake hd ht => exact .inl (by simp [ht])
  | service hr hp hm => exact .inl (State.sent_congr hm.history)

end

/-! ## Beats -/

/-- R180: beat `k` carries byte `k`. -/
theorem transferBeats_getElem? (t : Transfer) (k : Nat) : (transferBeats t)[k]? =
    t.bytes[k]?.map fun b => ⟨t.first, t.last, b, decide (k + 1 = t.bytes.length)⟩ := by
  by_cases hk : k < t.bytes.length
  · simp [transferBeats, hk]
  · simp [transferBeats, Nat.le_of_not_lt hk]

/-- R180: every beat names the transfer's pages, and `disp_eot` tells the last one. -/
theorem beat_fields_of_getElem? {t : Transfer} {k : Nat} {b : Beat} (h : (transferBeats t)[k]? = some b) :
    b.first = t.first ∧ b.last = t.last ∧ b.eot = decide (k + 1 = t.bytes.length) := by
  rw [transferBeats_getElem?] at h
  obtain ⟨_, -, rfl⟩ := Option.map_eq_some_iff.mp h
  exact ⟨rfl, rfl, rfl⟩

/-! ## The obligations -/

/-- Settles O23: waiting steps use up the two inputs only (`run_flushing_waits`), and a step without the sink's answer
waits unless `rst` is 1. -/
theorem hungFlushWaitsForEver : Obligations.HungFlushWaitsForEver := by
  refine ⟨fun n s tr hp hr hk => ?wait, fun s t tr hp ha h => ?leave⟩
  case wait =>
    have hsink : s.sink = List.replicate n false ++ s.sink.drop n := by rw [← hk, List.take_append_drop]
    exact ⟨_, run_flushing_waits n hp hr hsink, hp, isBusy_iff.mpr ⟨tr, hp⟩, rfl, rfl, rfl, rfl⟩
  case leave =>
    refine or_iff_not_imp_right.mpr fun hr => ?_
    obtain rfl := Host.Outcome.next.inj ((step_waits (Bool.eq_false_iff.mpr hr) hp ha).symm.trans h)
    simpa using hp

/-- Settles O24: the run is `n` waiting steps and the completion (`run_flushing_completes`). -/
theorem flushEndsWhenSinkCompletes : Obligations.FlushEndsWhenSinkCompletes := fun n _ _ _ hp hr hk =>
  ⟨_, run_flushing_completes n hp hr hk, rfl, completeFlush_sent .., rfl, rfl, rfl, rfl, rfl⟩

/-- Settles O26: by the kinds of step; that the transfer is one of whole pages of the store is the invariant after the
step. -/
theorem transfersComeFromDirtyFlushes : Obligations.TransfersComeFromDirtyFlushes :=
  ⟨fun _ _ _ hi h hp =>
    ⟨flushing_or_takes_flush_of_step h hp, Transfer.carriesPages_of_inFlight (inv_of_step hi h).inFlight hp⟩,
   fun _ _ => sent_of_step⟩

/-- Settles O22: the step is `completeFlush` once the two inputs are used up (`step_completes`). -/
theorem completionAppendsTransfer : Obligations.CompletionAppendsTransfer := fun _ _ hc =>
  ⟨_, step_completes hc, rfl, rfl, rfl, rfl, by simp⟩

/-- Settles O57: beat by beat (`transferBeats_getElem?`). -/
theorem beatsCarryTheTransfer : Obligations.BeatsCarryTheTransfer := by
  refine fun t => ⟨List.ext_getElem? fun k => ?bytes, fun b hb => ?range, fun k b h => ?eot⟩
  case bytes => simp [transferBeats_getElem?, Function.comp_def]
  case range =>
    obtain ⟨k, h⟩ := List.mem_iff_getElem?.mp hb
    obtain ⟨hfirst, hlast, -⟩ := beat_fields_of_getElem? h
    exact ⟨hfirst, hlast⟩
  case eot =>
    obtain ⟨-, -, heot⟩ := beat_fields_of_getElem? h
    rw [heot, decide_eq_true_iff]

end Sys2Proof.Machine
end

section
/-! PROOFS. Scope: what commands and steps do to the diagnostics `UNSUP` and `ILL`, and that each of them gives a next
state (spec/60_exceptions.md R190 to R199). -/

namespace Sys2Proof.Machine

section
variable {s t : State}

/-! ## A next state -/

/-- R198: no command has a condition that ends in a fault or a refusal. -/
theorem exec_eq_next (i : Instr) (s : State) : ∃ t, exec i s = .next t := by
  cases i <;> exact ⟨_, rfl⟩

/-- R207: of the things a step can do only a command could answer otherwise, and none does. -/
theorem step_eq_next (s : State) : ∃ t, step s = .next t := by
  rcases step_cases s with ⟨-, hs⟩ | ⟨-, ⟨tr, -, hs⟩ | ⟨-, ⟨-, hs⟩ | ⟨cw, rest, i, -, -, hs⟩ |
    ⟨cw, rest, e, -, -, hs⟩⟩⟩
  · exact ⟨_, hs⟩
  · exact ⟨_, hs⟩
  · exact ⟨_, hs⟩
  · exact (exec_eq_next i _).imp fun _ => hs.trans
  · exact ⟨_, hs⟩

/-! ## The diagnostics -/

/-- R199: a command is a paint, or leaves both diagnostics as they are. -/
theorem exec_paints_or_keepsDiagnostics {i : Instr} (h : exec i s = .next t) :
    (∃ o img x y, i = paintInstr o img x y ∧ t = paint o img (sext16 x) (sext16 y) s) ∨
      (t.unsup = s.unsup ∧ t.ill = s.ill) := by
  cases i <;> obtain rfl := Host.Outcome.next.inj h
  case draw img x y => exact .inl ⟨.set, img, x, y, rfl, rfl⟩
  case clrimg img x y => exact .inl ⟨.clear, img, x, y, rfl, rfl⟩
  case blend img x y => exact .inl ⟨.over, img, x, y, rfl, rfl⟩
  case flush => exact .inr (by split <;> exact ⟨rfl, rfl⟩)
  all_goals exact .inr ⟨rfl, rfl⟩

theorem flushStep_keepsDiagnostics (tr : Transfer) (s : State) :
    (flushStep tr s).unsup = s.unsup ∧ (flushStep tr s).ill = s.ill := by
  rcases flushStep_cases tr s with ⟨-, h⟩ | ⟨-, h⟩ <;> simp [h]

/-- What one step with `rst` at 0, from `s` to `t`, does to the diagnostics. -/
inductive DiagnosticsEffect (s t : State) : Prop where
  /-- R199: nothing. -/
  | kept (hunsup : t.unsup = s.unsup) (hill : t.ill = s.ill)
  /-- R27: a paint command is taken; it can set `UNSUP`. -/
  | painted (o : Operator) (img : ImgAddr) (x y : BitVec 16) (htake : Takes s (paintInstr o img x y))
    (hunsup : s.unsup = true → t.unsup = true) (hill : t.ill = s.ill)
  /-- R28: an illegal word is taken; it sets `ILL`. -/
  | illegal (hp : s.phase = .idle) (hword : ∃ cw rest e, s.host = cw :: rest ∧ decode cw = .error e)
    (hunsup : t.unsup = s.unsup) (hill : t.ill = true)

theorem step_diagnosticsEffect (h : step s = .next t) (hr : rstSample s = false) : DiagnosticsEffect s t := by
  rcases step_cases s with ⟨hr', -⟩ | ⟨-, ⟨tr, -, hs⟩ | ⟨hp, ⟨-, hs⟩ | ⟨cw, rest, i, hh, hd, hs⟩ |
    ⟨cw, rest, e, hh, hd, hs⟩⟩⟩
  · simp [hr] at hr'
  all_goals rw [hs] at h
  · obtain rfl := Host.Outcome.next.inj h
    obtain ⟨hunsup, hill⟩ := flushStep_keepsDiagnostics tr (takeRstSample s)
    exact .kept hunsup hill
  · obtain rfl := Host.Outcome.next.inj h
    exact .kept rfl rfl
  · rcases exec_paints_or_keepsDiagnostics h with ⟨o, img, x, y, rfl, rfl⟩ | ⟨hunsup, hill⟩
    · have hill := (paint_frame o img (sext16 x) (sext16 y) (takeHostWord (takeRstSample s))).ill
      exact .painted o img x y ⟨hr, hp, cw, rest, hh, hd⟩
        (paint_unsup_of_unsup (s := takeHostWord (takeRstSample s))) hill
    · exact .kept hunsup hill
  · obtain rfl := Host.Outcome.next.inj h
    exact .illegal hp ⟨cw, rest, e, hh, hd⟩ rfl rfl

end

/-! ## The obligations -/

/-- Settles O50: by the three effects of a step on the diagnostics (`step_diagnosticsEffect`). -/
theorem diagnosticsAreSticky : Obligations.DiagnosticsAreSticky := by
  intro s t h hr
  cases step_diagnosticsEffect h hr with
  | kept hunsup hill => exact ⟨hunsup.trans, hill.trans, fun ht => .inl (hunsup ▸ ht), fun ht => .inl (hill ▸ ht)⟩
  | painted o img x y htake hunsup hill =>
    exact ⟨hunsup, hill.trans, fun _ => .inr ⟨o, img, x, y, htake⟩, fun ht => .inl (hill ▸ ht)⟩
  | illegal hp hword hunsup hill =>
    exact ⟨hunsup.trans, fun _ => hill, fun ht => .inl (hunsup ▸ ht), fun _ => .inr ⟨hp, hword⟩⟩

/-- Settles O8: every command gives a next state, so every kind of step does. -/
theorem everyStepAnswersANextState : Obligations.EveryStepAnswersANextState := ⟨exec_eq_next, step_eq_next⟩

end Sys2Proof.Machine
end
